-- ==== Sys2Proof/Word.lean ====
section
/-! DEFINITION. The machine's words (00_scope.md rule R2) and the two manual-independent bit readings
of 00_scope.md rules R4 and R5. -/

namespace Sys2Proof

/-- The contents of an arithmetic register `A[n]`: 48 bits (R2, R10). -/
abbrev ArithWord := BitVec 48

/-- The contents of an index register `X[n]`: 24 bits (R2, R13). -/
abbrev IndexWord := BitVec 24

/-- An 8-bit byte (R2): an operand byte or a test byte of a byte compare, a byte of an encoded program. -/
abbrev Byte := BitVec 8

/-- A double precision operand: the ordered pair `(A[n], A[n+1])`, `n` even (R12). Which register holds
the more significant part is not in the source, and nothing in the model depends on it. -/
abbrev ArithPair := ArithWord × ArithWord

end Sys2Proof
end

