-- ==== Sys2Proof/Config.lean ====
section
/-! DEFINITION. What the spec keeps as parameters (00_scope.md rule R3): the named constants it decides
(D1, D3, D5), the open encoding parameters (D6, D8), the open record `FP` (D10, D12, D19) and the free value
`draw()` (D11). -/

namespace Sys2Proof

/-- `EXC_POLICY` (60_exceptions.md rule R131): what the model does after an exception bit is raised.
The policy of a run stands in `State.policy`, which no step writes (log 4). -/
inductive ExcPolicy where
  /-- The default, and the only policy a claim about the hardware should be made under: a fault is
  recorded after the instruction's writes and no later step is taken. -/
  | fault
  /-- For simulation only: the run goes on with the sticky bit set. Unsafe if the hardware interrupts
  or halts (R131). -/
  | continue
  deriving DecidableEq, Repr

/-- The open record `FP` of predicates on bit patterns (41_compare_float.md rules R80, R81). The
machine assumes nothing of these functions except that each depends on its arguments alone. -/
structure FP where
  /-- `FP.unnorm_s`: the word is an unnormalized single precision number. Open at `U48` too (D19). -/
  unnormS : ArithWord → Bool
  /-- `FP.ge_s`: the first number is greater than or equal to the second. -/
  geS : ArithWord → ArithWord → Bool
  /-- `FP.eq_s`: the numbers are equal. -/
  eqS : ArithWord → ArithWord → Bool
  /-- `FP.mge_s`: the magnitude of the first is greater than or equal to that of the second. -/
  mgeS : ArithWord → ArithWord → Bool
  /-- `FP.meq_s`: the magnitudes are equal. -/
  meqS : ArithWord → ArithWord → Bool
  /-- `FP.unnorm_d`: the pair is an unnormalized double precision number. Open on a `u` pair too (D19). -/
  unnormD : ArithPair → Bool
  /-- The open part of `FP.is_u_d`: is `(U48, lo)` the operand `u`, for `lo` not 0 (R82, D12). Its value
  at `lo = 0` is never used: R82 fixes that point. -/
  isUDOpen : ArithWord → Bool
  /-- `FP.ge_d`. -/
  geD : ArithPair → ArithPair → Bool
  /-- `FP.eq_d`. -/
  eqD : ArithPair → ArithPair → Bool
  /-- `FP.mge_d`. -/
  mgeD : ArithPair → ArithPair → Bool
  /-- `FP.meq_d`. -/
  meqD : ArithPair → ArithPair → Bool
  deriving Inhabited

/-- The hardware's own `FP` record. It has no body: the floating-point formats are not in the source
(N7), so nothing can be evaluated or proved of it (log 7). -/
opaque Config.fp : FP

/-- The free value `draw()` of rules R66, R92 and R93: 0 or 1 under no law. It has no body; the argument
is the count of draws the run has made, so that two draws need not agree (log 6). -/
opaque Config.draw : Nat → Bool

/-- `W_H`: the `h` literal has 24 bits (R46; the spec's own decision D5, log 10). -/
abbrev Config.wH : Nat := 24

/-- A literal `h`, of `W_H` bits. Every meaning compares it with an `X` register as it stands, so the two
widths agree (R46, R47). -/
abbrev Literal := BitVec Config.wH

/-- The 21 mnemonics of 30_encoding.md rule R52: the domain of the parameter `OPMAP` (R3). -/
inductive Mnemonic where
  | cgen | ceqn | cged | ceqd | cmgen | cmeqn | cmged | cmeqd
  | cgei | ceqi | cugei | cgex | ceqx | cugex | cgexk | ceqxk
  | cugexk | cba | cbma | cbx | cbmx
  deriving DecidableEq, Repr

/-- What R48 leaves open of one of the two instruction words besides the widths of its fields: its total
length and the position of its unused bits. The order of the fields is fixed, the leftmost is `op` (R40 to
R42); unused bits that follow the last field are those that the length leaves. -/
structure WordFormat where
  /-- `LEN_I` or `LEN_II`. -/
  len : Nat
  /-- Unused bits between `op` and `i`. -/
  afterOp : Nat
  /-- Unused bits between `i` and `j`. -/
  afterI : Nat
  /-- Unused bits between `j` and `k`, or `j` and `h`. -/
  afterJ : Nat
  deriving DecidableEq, Repr

/-- The open parameters of the binary layer (R3, R48; D6, D8). The decoder, the encoder, `wellFormed` and the
invariant take them as arguments; no meaning reads them. The reference instance is `encRef` (R49, log 11). -/
structure Encoding where
  /-- `W_OP`, the width of the `op` field. -/
  wOp : Nat
  /-- `W_R`, the width of the `j` and `k` fields. -/
  wR : Nat
  /-- `OPMAP`, the `op` value of each instruction. -/
  opMap : Mnemonic → Nat
  /-- The format I word, with `LEN_I`. -/
  formatI : WordFormat
  /-- The format II word, with `LEN_II`. -/
  formatII : WordFormat

/-- `BIT0_MSB`: bit `<0>` of a register is its most significant bit (R4, D1, log 8). The pattern of `u`,
the order of the operand bytes and the packing of `S0` are written over this one constant. -/
def Config.bit0Msb : Bool := true

end Sys2Proof
end

