-- ==== Sys2Proof/Syntax.lean ====
section
/-! DEFINITION. The decoded instructions: the terms `(mnemonic, i, j, k)` and `(mnemonic, i, j, h)` that
every rule of files 40 to 44 is stated on (30_encoding.md rule R48), one constructor for each row of
spec/opcode_table.json, in the table's order. -/

namespace Sys2Proof

/-- The 21 compare instructions. `i` is the 5-bit condition bit number (R43), `j` and `k` are register
numbers, natural numbers because their width `W_R` is open (R6, D6), and `h` is the literal of `W_H` bits (R46).
Seven of the names are the source's, the other 14 are assigned by the spec (R52, log 19). -/
inductive Instr where
  /-- Compare, Greater or Equal, Normalized (R83). -/
  | cgen (i : BitVec 5) (j k : Nat)
  /-- Compare, Equal, Normalized (R84). -/
  | ceqn (i : BitVec 5) (j k : Nat)
  /-- Compare, Greater or Equal, Double (R85). -/
  | cged (i : BitVec 5) (j k : Nat)
  /-- Compare, Equal, Double (R86). -/
  | ceqd (i : BitVec 5) (j k : Nat)
  /-- Compare Magnitude, Greater or Equal, Normalized (R87). -/
  | cmgen (i : BitVec 5) (j k : Nat)
  /-- Compare Magnitude, Equal, Normalized (R88). -/
  | cmeqn (i : BitVec 5) (j k : Nat)
  /-- Compare Magnitude Double, Greater or Equal (R89). -/
  | cmged (i : BitVec 5) (j k : Nat)
  /-- Compare Magnitude Double, Equal (R90). -/
  | cmeqd (i : BitVec 5) (j k : Nat)
  /-- Compare, Greater or Equal, Integer (R100). -/
  | cgei (i : BitVec 5) (j k : Nat)
  /-- Compare, Equal, Integer (R101). -/
  | ceqi (i : BitVec 5) (j k : Nat)
  /-- Compare Unsigned, Greater or Equal, Integer (R102). -/
  | cugei (i : BitVec 5) (j k : Nat)
  /-- Compare, Greater or Equal, Index (R110). -/
  | cgex (i : BitVec 5) (j k : Nat)
  /-- Compare, Equal, Index (R111). -/
  | ceqx (i : BitVec 5) (j k : Nat)
  /-- Compare Unsigned, Greater or Equal, Index (R112). -/
  | cugex (i : BitVec 5) (j k : Nat)
  /-- Compare Index with Constant, Greater or Equal (R113). -/
  | cgexk (i : BitVec 5) (j : Nat) (h : Literal)
  /-- Compare Index with Constant, Equal (R114). -/
  | ceqxk (i : BitVec 5) (j : Nat) (h : Literal)
  /-- Compare Unsigned Index with Constant, Greater or Equal (R115). -/
  | cugexk (i : BitVec 5) (j : Nat) (h : Literal)
  /-- Compare Bytes, Arithmetic (R120). -/
  | cba (i : BitVec 5) (j k : Nat)
  /-- Compare Bytes, Multiple, Arithmetic (R121). -/
  | cbma (i : BitVec 5) (j k : Nat)
  /-- Compare Bytes, Index (R122). -/
  | cbx (i : BitVec 5) (j k : Nat)
  /-- Compare Bytes, Multiple, Index (R123). -/
  | cbmx (i : BitVec 5) (j k : Nat)
  deriving DecidableEq, Repr

/-- The mnemonic of an instruction (30_encoding.md rule R48: the first component of a decoded term). -/
def Instr.mnemonic : Instr → Mnemonic
  | .cgen _ _ _ => .cgen
  | .ceqn _ _ _ => .ceqn
  | .cged _ _ _ => .cged
  | .ceqd _ _ _ => .ceqd
  | .cmgen _ _ _ => .cmgen
  | .cmeqn _ _ _ => .cmeqn
  | .cmged _ _ _ => .cmged
  | .cmeqd _ _ _ => .cmeqd
  | .cgei _ _ _ => .cgei
  | .ceqi _ _ _ => .ceqi
  | .cugei _ _ _ => .cugei
  | .cgex _ _ _ => .cgex
  | .ceqx _ _ _ => .ceqx
  | .cugex _ _ _ => .cugex
  | .cgexk _ _ _ => .cgexk
  | .ceqxk _ _ _ => .ceqxk
  | .cugexk _ _ _ => .cugexk
  | .cba _ _ _ => .cba
  | .cbma _ _ _ => .cbma
  | .cbx _ _ _ => .cbx
  | .cbmx _ _ _ => .cbmx

end Sys2Proof
end

