-- ==== Sys2Proof/WellFormed.lean ====
section
/-! DEFINITION. When a decoded instruction is one the format can hold: its register numbers fit the `j`
and `k` fields (00_scope.md rule R6). The fields `i` and `h` fit by their types. -/

namespace Sys2Proof

/-- `0 <= n < 2^W_R` (R6). -/
def regFits (wR n : Nat) : Bool := decide (n < 2 ^ wR)

/-- The instruction's register numbers fit their fields, of `W_R` bits each (R6; `W_R` is open, R3). Whether such a register EXISTS depends on
`N_A` and `N_X` and is checked when the register is read (R44); an odd number in a double precision
compare is well formed, and executing it raises `RS` (R67). -/
def Instr.wellFormed (wR : Nat) : Instr → Bool
  | .cgen _ j k => regFits wR j && regFits wR k
  | .ceqn _ j k => regFits wR j && regFits wR k
  | .cged _ j k => regFits wR j && regFits wR k
  | .ceqd _ j k => regFits wR j && regFits wR k
  | .cmgen _ j k => regFits wR j && regFits wR k
  | .cmeqn _ j k => regFits wR j && regFits wR k
  | .cmged _ j k => regFits wR j && regFits wR k
  | .cmeqd _ j k => regFits wR j && regFits wR k
  | .cgei _ j k => regFits wR j && regFits wR k
  | .ceqi _ j k => regFits wR j && regFits wR k
  | .cugei _ j k => regFits wR j && regFits wR k
  | .cgex _ j k => regFits wR j && regFits wR k
  | .ceqx _ j k => regFits wR j && regFits wR k
  | .cugex _ j k => regFits wR j && regFits wR k
  | .cgexk _ j _ => regFits wR j
  | .ceqxk _ j _ => regFits wR j
  | .cugexk _ j _ => regFits wR j
  | .cba _ j k => regFits wR j && regFits wR k
  | .cbma _ j k => regFits wR j && regFits wR k
  | .cbx _ j k => regFits wR j && regFits wR k
  | .cbmx _ j k => regFits wR j && regFits wR k

end Sys2Proof
end

