-- ==== Sys2Proof/Decode.lean ====
section
/-! DEFINITION. The binary layer below the decoded instructions (30_encoding.md rules R40 to R42, R48): the
decoder and the encoder over the open parameters `W_OP`, `W_R`, `OPMAP`, `LEN_I`, `LEN_II` and the position of
unused bits; the spec's reference instance `ENC_REF` of them (rule R49); and the spec's spelling of an
instruction (rules R52, R53). `ENC_REF` is the spec's own choice, not the hardware's encoding (R48, D8,
log 11). A word is a list of bits, the leftmost, most significant bit first (R40). -/

namespace Sys2Proof

/-! ## Bits -/

/-- The lowest `n` bits of a number, the most significant of them first (R4). -/
def bitsOf : Nat → Nat → List Bool
  | 0, _ => []
  | n + 1, v => v.testBit n :: bitsOf n v

/-- The number that bits spell, the most significant first: `uint` of R5. -/
def numberOf : List Bool → Nat
  | [] => 0
  | b :: bits => b.toNat * 2 ^ bits.length + numberOf bits

/-- The `width` bits of a word that begin `start` bits from its left end: manual bits
`<start .. start+width-1>` (R4). -/
def slice (start width : Nat) (word : List Bool) : List Bool := (word.drop start).take width

/-- The bits of a list of bytes. -/
def bitsOfBytes (bs : List Byte) : List Bool := bs.flatMap fun b => bitsOf 8 b.toNat

/-! ## The layout of a word -/

/-- The 21 mnemonics in the order of the opcode table. -/
def Mnemonic.all : List Mnemonic :=
  [.cgen, .ceqn, .cged, .ceqd, .cmgen, .cmeqn, .cmged, .cmeqd,
   .cgei, .ceqi, .cugei, .cgex, .ceqx, .cugex, .cgexk, .ceqxk,
   .cugexk, .cba, .cbma, .cbx, .cbmx]

/-- The instructions of format II, `op i j h`; the others are of format I, `op i j k` (R40, R42, R49). -/
def Mnemonic.isFormatII : Mnemonic → Bool
  | .cgen => false
  | .ceqn => false
  | .cged => false
  | .ceqd => false
  | .cmgen => false
  | .cmeqn => false
  | .cmged => false
  | .cmeqd => false
  | .cgei => false
  | .ceqi => false
  | .cugei => false
  | .cgex => false
  | .ceqx => false
  | .cugex => false
  | .cgexk => true
  | .ceqxk => true
  | .cugexk => true
  | .cba => false
  | .cbma => false
  | .cbx => false
  | .cbmx => false

/-- The word format of an instruction (R40). -/
def Encoding.format (e : Encoding) (m : Mnemonic) : WordFormat := if m.isFormatII then e.formatII else e.formatI

/-- The width of the last field: `W_H` for `h`, `W_R` for `k` (R41, R42). -/
def Encoding.lastWidth (e : Encoding) (m : Mnemonic) : Nat := if m.isFormatII then Config.wH else e.wR

/-- Where the `i` field, of 5 bits (R43), begins, counted from the left end of the word. -/
def Encoding.iAt (e : Encoding) (m : Mnemonic) : Nat := e.wOp + (e.format m).afterOp

/-- Where the `j` field, of `W_R` bits, begins. -/
def Encoding.jAt (e : Encoding) (m : Mnemonic) : Nat := e.iAt m + 5 + (e.format m).afterI

/-- Where the last field, `k` or `h`, begins. -/
def Encoding.lastAt (e : Encoding) (m : Mnemonic) : Nat := e.jAt m + e.wR + (e.format m).afterJ

/-- Where the last field ends. -/
def Encoding.endAt (e : Encoding) (m : Mnemonic) : Nat := e.lastAt m + e.lastWidth m

/-- The unused bits of a word, those after the last field included. -/
def Encoding.unusedBits (e : Encoding) (m : Mnemonic) (word : List Bool) : List Bool :=
  slice e.wOp (e.format m).afterOp word ++ slice (e.iAt m + 5) (e.format m).afterI word ++
    slice (e.jAt m + e.wR) (e.format m).afterJ word ++ slice (e.endAt m) ((e.format m).len - e.endAt m) word

/-! ## The decoder -/

/-- Why the decoder refuses a list of bits (R49, R50; U11). -/
inductive DecodeError where
  /-- The list ends before the instruction does. -/
  | truncated
  /-- The `op` field is none of the 21 values of `OPMAP`. -/
  | undefinedOp (op : Nat)
  /-- The unused bits of the word are not all 0. -/
  | unusedNotZero (bits : List Bool)
  deriving DecidableEq, Repr

/-- What the decoder answers: an instruction and the bits after it, or a refusal by name. -/
inductive Decoded where
  | instr (i : Instr) (rest : List Bool)
  | bad (e : DecodeError)
  deriving DecidableEq, Repr

/-- The decoded term of a mnemonic and the values of its fields, `last` being the number in `k` or `h`. -/
def Mnemonic.instr (i : BitVec 5) (j last : Nat) : Mnemonic → Instr
  | .cgen => .cgen i j last
  | .ceqn => .ceqn i j last
  | .cged => .cged i j last
  | .ceqd => .ceqd i j last
  | .cmgen => .cmgen i j last
  | .cmeqn => .cmeqn i j last
  | .cmged => .cmged i j last
  | .cmeqd => .cmeqd i j last
  | .cgei => .cgei i j last
  | .ceqi => .ceqi i j last
  | .cugei => .cugei i j last
  | .cgex => .cgex i j last
  | .ceqx => .ceqx i j last
  | .cugex => .cugex i j last
  | .cgexk => .cgexk i j (BitVec.ofNat Config.wH last)
  | .ceqxk => .ceqxk i j (BitVec.ofNat Config.wH last)
  | .cugexk => .cugexk i j (BitVec.ofNat Config.wH last)
  | .cba => .cba i j last
  | .cbma => .cbma i j last
  | .cbx => .cbx i j last
  | .cbmx => .cbmx i j last

/-- The instruction that an `op` value names (R48: only `op` can tell the instruction and its format). -/
def Encoding.mnemonicOf (e : Encoding) (op : Nat) : Option Mnemonic :=
  Mnemonic.all.find? fun m => e.opMap m == op

/-- Read the fields of a whole word (R41, R42); unused bits that are not 0 are refused, as R49 has it for
`ENC_REF`. -/
def Encoding.readWord (e : Encoding) (m : Mnemonic) (word rest : List Bool) : Decoded :=
  if (e.unusedBits m word).any id then .bad (.unusedNotZero (e.unusedBits m word))
  else
    .instr
      (m.instr (BitVec.ofNat 5 (numberOf (slice (e.iAt m) 5 word))) (numberOf (slice (e.jAt m) e.wR word))
        (numberOf (slice (e.lastAt m) (e.lastWidth m) word)))
      rest

/-- Read the instruction at the head of a list of bits (R48, R49): the leftmost field `op` names the
instruction and with it the length of the word. -/
def decode (e : Encoding) (bits : List Bool) : Decoded :=
  if bits.length < e.wOp then .bad .truncated
  else
    match e.mnemonicOf (numberOf (bits.take e.wOp)) with
    | none => .bad (.undefinedOp (numberOf (bits.take e.wOp)))
    | some m =>
      if bits.length < (e.format m).len then .bad .truncated
      else e.readWord m (bits.take (e.format m).len) (bits.drop (e.format m).len)

/-- Decode a whole image into the program list it spells, at most `fuel` instructions: the binary layer
that 20_memory.md rule R31 lets a model add below the program list. -/
def decodeAll (e : Encoding) : Nat → List Bool → Option (List Instr)
  | _, [] => some []
  | 0, _ :: _ => none
  | fuel + 1, b :: bits =>
    match decode e (b :: bits) with
    | .instr i rest => (decodeAll e fuel rest).map (i :: ·)
    | .bad _ => none

/-- The program list that an image of instruction words spells (R22, R31), or nothing if some word of it is
no instruction. -/
def decodeProgram (e : Encoding) (bits : List Bool) : Option (List Instr) := decodeAll e bits.length bits

/-! ## The encoder -/

/-- A word: its fields from the left, `op`, `i`, `j` and then `k` or `h`, and 0 in the unused bits (R41, R42). -/
def Encoding.word (e : Encoding) (m : Mnemonic) (i : BitVec 5) (j last : Nat) : List Bool :=
  bitsOf e.wOp (e.opMap m) ++ (bitsOf (e.format m).afterOp 0 ++ (bitsOf 5 i.toNat ++
    (bitsOf (e.format m).afterI 0 ++ (bitsOf e.wR j ++ (bitsOf (e.format m).afterJ 0 ++
      (bitsOf (e.lastWidth m) last ++ bitsOf ((e.format m).len - e.endAt m) 0))))))

/-- The word of a well-formed instruction (R48). -/
def encode (e : Encoding) : Instr → List Bool
  | .cgen i j k => e.word .cgen i j k
  | .ceqn i j k => e.word .ceqn i j k
  | .cged i j k => e.word .cged i j k
  | .ceqd i j k => e.word .ceqd i j k
  | .cmgen i j k => e.word .cmgen i j k
  | .cmeqn i j k => e.word .cmeqn i j k
  | .cmged i j k => e.word .cmged i j k
  | .cmeqd i j k => e.word .cmeqd i j k
  | .cgei i j k => e.word .cgei i j k
  | .ceqi i j k => e.word .ceqi i j k
  | .cugei i j k => e.word .cugei i j k
  | .cgex i j k => e.word .cgex i j k
  | .ceqx i j k => e.word .ceqx i j k
  | .cugex i j k => e.word .cugex i j k
  | .cgexk i j h => e.word .cgexk i j h.toNat
  | .ceqxk i j h => e.word .ceqxk i j h.toNat
  | .cugexk i j h => e.word .cugexk i j h.toNat
  | .cba i j k => e.word .cba i j k
  | .cbma i j k => e.word .cbma i j k
  | .cbx i j k => e.word .cbx i j k
  | .cbmx i j k => e.word .cbmx i j k

/-! ## The reference instance `ENC_REF` (R49) -/

/-- The opcode map of R49: the position of the instruction in the source. -/
def refOp : Mnemonic → Nat
  | .cgen => 0x001
  | .ceqn => 0x002
  | .cged => 0x003
  | .ceqd => 0x004
  | .cmgen => 0x005
  | .cmeqn => 0x006
  | .cmged => 0x007
  | .cmeqd => 0x008
  | .cgei => 0x009
  | .ceqi => 0x00A
  | .cugei => 0x00B
  | .cgex => 0x00C
  | .ceqx => 0x00D
  | .cugex => 0x00E
  | .cgexk => 0x00F
  | .ceqxk => 0x010
  | .cugexk => 0x011
  | .cba => 0x012
  | .cbma => 0x013
  | .cbx => 0x014
  | .cbmx => 0x015

/-- `ENC_REF` (R49): `op:9 i:5 j:5 k:5` in 24 bits, `op:9 i:5 j:5 zero:5 h:24` in 48 bits. -/
def encRef : Encoding where
  wOp := 9
  wR := 5
  opMap := refOp
  formatI := { len := 24, afterOp := 0, afterI := 0, afterJ := 0 }
  formatII := { len := 48, afterOp := 0, afterI := 0, afterJ := 5 }

/-- The lowest `n` bytes of `w`, the most significant of them first. -/
def leftmostFirst : Nat → Nat → List Byte
  | 0, _ => []
  | n + 1, w => BitVec.ofNat 8 (w / 2 ^ (8 * n)) :: leftmostFirst n w

/-- The bytes of an instruction whose row of spec/opcode_table.json has `nbits` bits, numbered as the
table numbers them (bit 0 the least significant bit of the row's one word), with zeros after them up to
the longest instruction. -/
def tableBytes (nbits w : Nat) : List Byte :=
  leftmostFirst ((nbits + 7) / 8) w ++ List.replicate (6 - (nbits + 7) / 8) 0#8

/-- The instruction the decoder reads from a word of spec/opcode_table.json, which gives `ENC_REF`. -/
def decodeTableWord (nbits w : Nat) : Option Instr :=
  match decode encRef (bitsOfBytes (tableBytes nbits w)) with
  | .instr i _ => some i
  | .bad _ => none

/-! ## The spelling -/

/-- The spelling of a mnemonic (R52, log 19). -/
def Mnemonic.name : Mnemonic → String
  | .cgen => "CGEN"
  | .ceqn => "CEQN"
  | .cged => "CGED"
  | .ceqd => "CEQD"
  | .cmgen => "CMGEN"
  | .cmeqn => "CMEQN"
  | .cmged => "CMGED"
  | .cmeqd => "CMEQD"
  | .cgei => "CGEI"
  | .ceqi => "CEQI"
  | .cugei => "CUGEI"
  | .cgex => "CGEX"
  | .ceqx => "CEQX"
  | .cugex => "CUGEX"
  | .cgexk => "CGEXK"
  | .ceqxk => "CEQXK"
  | .cugexk => "CUGEXK"
  | .cba => "CBA"
  | .cbma => "CBMA"
  | .cbx => "CBX"
  | .cbmx => "CBMX"

/-- The operand fields of an instruction in the order of its format, in plain decimal (R53). -/
def Instr.operandFields : Instr → List Nat
  | .cgen i j k => [i.toNat, j, k]
  | .ceqn i j k => [i.toNat, j, k]
  | .cged i j k => [i.toNat, j, k]
  | .ceqd i j k => [i.toNat, j, k]
  | .cmgen i j k => [i.toNat, j, k]
  | .cmeqn i j k => [i.toNat, j, k]
  | .cmged i j k => [i.toNat, j, k]
  | .cmeqd i j k => [i.toNat, j, k]
  | .cgei i j k => [i.toNat, j, k]
  | .ceqi i j k => [i.toNat, j, k]
  | .cugei i j k => [i.toNat, j, k]
  | .cgex i j k => [i.toNat, j, k]
  | .ceqx i j k => [i.toNat, j, k]
  | .cugex i j k => [i.toNat, j, k]
  | .cgexk i j h => [i.toNat, j, h.toNat]
  | .ceqxk i j h => [i.toNat, j, h.toNat]
  | .cugexk i j h => [i.toNat, j, h.toNat]
  | .cba i j k => [i.toNat, j, k]
  | .cbma i j k => [i.toNat, j, k]
  | .cbx i j k => [i.toNat, j, k]
  | .cbmx i j k => [i.toNat, j, k]

/-- The spec's spelling `MNEMONIC i, j, k` or `MNEMONIC i, j, h` (R53). -/
def Instr.assembly (i : Instr) : String :=
  i.mnemonic.name ++ " " ++ ", ".intercalate (i.operandFields.map toString)

end Sys2Proof
end

