-- ==== Sys2Proof/Machine/State.lean ====
section
/-! DEFINITION. Everything the spec gives the machine (10_state.md), the run's own parameters that the
host's interface leaves nowhere else to hold, the reasons a step can stop, and the state after reset. -/

namespace Sys2Proof.Machine

/-- The three exception bits (10_state.md rule R20); also used for the set of exceptions that one
instruction raises, and that a fault record names (R134). -/
structure ExcBits where
  /-- `UO`, "Unnormalized operand". -/
  uo : Bool
  /-- `CC`, "condition check". -/
  cc : Bool
  /-- `RS`, "`j` or `k` odd". -/
  rs : Bool
  deriving DecidableEq, Repr

/-- A recorded fault: the exceptions it names and the `pc` of the instruction that raised them (R131, R134). -/
structure FaultRecord where
  raised : ExcBits
  pc : Nat
  deriving DecidableEq, Repr

/-- The state of the machine, of rules R10 to R22 (R25: and no other). -/
structure State where
  /-- `A[0] .. A[N_A-1]` (R10). `N_A` is open (R3, D6): it is the length of this list. -/
  a : List ArithWord
  /-- `X[0] .. X[N_X-1]` (R13). `N_X` is open (R3, D6): it is the length of this list. -/
  x : List IndexWord
  /-- The condition bits `c[0] .. c[23]`, together special register `S0` (R15). Bit numbers 24 to 31
  have no storage (R19). -/
  c : Vector Bool 24
  /-- The exception bits (R20), sticky (R21). -/
  exc : ExcBits
  /-- The position in the program list of the next instruction (R22). -/
  pc : Nat
  /-- The recorded fault, if there is one (R131): a faulted state is never final and takes no step. -/
  fault : Option FaultRecord
  /-- The program list (R22): a parameter of the run, which no step writes (R36, log 1). -/
  prog : List Instr
  /-- `EXC_POLICY` (R131): a parameter of the model, which no step writes (log 4). -/
  policy : ExcPolicy
  /-- How many draws the run has made: the model's own field, for the free value `draw()` (log 6). -/
  draws : Nat
  deriving DecidableEq, Repr

/-- Why the machine stops with a fault. -/
inductive Fault where
  /-- Raised by `step` alone, on a state with a fault recorded: "no later step is taken" (R131). Safe:
  the model claims nothing of what the hardware does after the exception. -/
  | recorded (r : FaultRecord)
  deriving DecidableEq, Repr

/-- Why the machine gives no next state without a fault. -/
inductive Refusal where
  /-- Raised by an arm of `exec` whose instruction has no meaning yet. Safe. -/
  | notModelled (mnemonic : String)
  /-- Raised by a meaning that reads `A[n]` where `n` names no register (R44, D24). Safe. -/
  | noArithRegister (n : Nat)
  /-- Raised by a meaning that reads `X[n]` where `n` names no register (R44, D24). Safe. -/
  | noIndexRegister (n : Nat)
  /-- Raised by `step` at `pc = length(prog)`: the run is over (R153, D23). Safe: what follows the last
  compare on the hardware is outside the spec. -/
  | runOver
  /-- Raised by `step` at a `pc` beyond `length(prog)`, which no run reaches (R153). Safe. -/
  | pcBeyondProgram
  deriving DecidableEq, Repr

/-- No exception. -/
def ExcBits.none : ExcBits := { uo := false, cc := false, rs := false }

/-- At least one exception. -/
def ExcBits.any (e : ExcBits) : Bool := e.uo || e.cc || e.rs

/-- The bits of either: the sticky union of R130 ("a bit that is already 1 stays 1"). -/
def ExcBits.union (e f : ExcBits) : ExcBits :=
  { uo := e.uo || f.uo, cc := e.cc || f.cc, rs := e.rs || f.rs }

/-- The machine right after reset. The spec gives a value to `pc` alone (R24, R150); every other value
is one that log 1 to log 4 and log 6 name: 32 registers in each file, all zero, no condition or exception bit set,
no fault recorded, no program loaded, the default `EXC_POLICY`. -/
def State.reset : State where
  a := List.replicate 32 0#48
  x := List.replicate 32 0#24
  c := Vector.replicate 24 false
  exc := ExcBits.none
  pc := 0
  fault := Option.none
  prog := []
  policy := .fault
  draws := 0

end Sys2Proof.Machine
end

