-- ==== Sys2Proof/Machine/Ops.lean ====
section
/-! DEFINITION. The named operations over the registers, the condition bits, the exception bits and the
program list: `SetC` (40_compare_common.md rules R60 to R62), raising an exception and what follows it
(60_exceptions.md rules R130, R131, R133, R134), and the end of an instruction (R68). -/

namespace Sys2Proof.Machine

/-- Read `A[n]` (R5, R10): nothing where `n` names no register. No register is hardwired (R14). -/
def State.readA (s : State) (n : Nat) : Option ArithWord := s.a[n]?

/-- Read `X[n]` (R5, R13): nothing where `n` names no register. -/
def State.readX (s : State) (n : Nat) : Option IndexWord := s.x[n]?

/-- Special register `S0`: the 24 condition bits seen as one register (R15), `c[n] = S0<n>` (R16, D21).
No instruction reads it. -/
def State.s0 (s : State) : BitVec 24 :=
  (if Config.bit0Msb then s.c.toList else s.c.toList.reverse).foldl
    (fun w b => (w <<< 1) ||| (BitVec.ofBool b).setWidth 24) 0#24

/-- The write of `SetC(n, v)` (R60): an existing bit takes the value, whatever it held before; the
result for a nonexistent bit is lost (R61). -/
def State.setC (s : State) (n : Nat) (v : Bool) : State :=
  if h : n < 24 then { s with c := s.c.set n v h } else s

/-- Does `SetC(n, v)` raise `CC`: an attempt to set `c24` to 0 or `c25` to 1 (R60, R62). -/
def conditionCheck (n : Nat) (v : Bool) : Bool := (n == 24 && !v) || (n == 25 && v)

/-- Every `SetC` write of an instruction (R68: all together). -/
def State.setCs (s : State) (writes : List (Nat × Bool)) : State :=
  writes.foldl (fun s w => s.setC w.1 w.2) s

/-- Does one of an instruction's `SetC` calls raise `CC` (R62). -/
def conditionChecks (writes : List (Nat × Bool)) : Bool := writes.any fun w => conditionCheck w.1 w.2

/-- `EXC.E <- 1` for each exception raised (R130); a bit that is already 1 stays 1 (R21). -/
def State.setExc (s : State) (raised : ExcBits) : State := { s with exc := s.exc.union raised }

/-- Sequencing: `pc <- pc + 1` (R22, R68). -/
def State.advance (s : State) : State := { s with pc := s.pc + 1 }

/-- Record a fault naming the exceptions and the `pc` (R131, R134). -/
def State.recordFault (s : State) (raised : ExcBits) : State :=
  { s with fault := some { raised := raised, pc := s.pc } }

/-- Taking exceptions: each bit is set (R130), and then `EXC_POLICY` applies (R131). Under `fault` a
fault naming all of them is recorded and `pc` stays; under `continue` the instruction completes. The
source describes no trap entry and no return from one (R135, R136), so there is no other part. -/
def State.takeException (s : State) (raised : ExcBits) : State :=
  match s.policy with
  | .fault => (s.setExc raised).recordFault raised
  | .continue => (s.setExc raised).advance

/-- The end of an instruction whose writes are done (R68): the exceptions it raised are taken, or `pc`
advances. -/
def State.retire (s : State) (raised : ExcBits) : State :=
  if raised.any then s.takeException raised else s.advance

/-- Steps (3) and (4) of R68: every `SetC` of the instruction, every `raise`, then `pc`. `uo` says that
the instruction raises `UO` (R66). -/
def State.commit (s : State) (writes : List (Nat × Bool)) (uo : Bool) : State :=
  (s.setCs writes).retire { uo := uo, cc := conditionChecks writes, rs := false }

/-- An odd register number in a double precision compare (R67): `RS` is raised and the machine faults,
under every `EXC_POLICY`. Nothing else is done: `RS` alone is raised (R134). -/
def State.oddRegister (s : State) : State :=
  let raised : ExcBits := { uo := false, cc := false, rs := true }
  (s.setExc raised).recordFault raised

/-- One use of the free value `draw()` (R66): the bit, and the state in which the draw has been made. -/
def State.draw (s : State) : Bool × State := (Config.draw s.draws, { s with draws := s.draws + 1 })

/-- The instruction `prog[pc]` (R22). -/
def State.fetch (s : State) : Option Instr := s.prog[s.pc]?

/-- Why there is no instruction at `pc`: the run is over at `pc = length(prog)` (R153). -/
def State.noInstruction (s : State) : Refusal :=
  if s.pc = s.prog.length then .runOver else .pcBeyondProgram

/-- Put an instruction at a position of a program list; a gap before it is filled with that same
instruction. -/
def putAt (i : Instr) : Nat → List Instr → List Instr
  | 0, [] => [i]
  | 0, _ :: rest => i :: rest
  | n + 1, [] => i :: putAt i n []
  | n + 1, j :: rest => j :: putAt i n rest

/-- The state in which the very next step runs the instruction that a word of spec/opcode_table.json
spells: it stands at `pc` and no fault is recorded (R151). For a word that is no instruction nothing
stands at `pc`, because no decoded term exists (R50, U11). -/
def State.placeTableWord (s : State) (nbits w : Nat) : State :=
  match decodeTableWord nbits w with
  | some i => { s with prog := putAt i s.pc s.prog, fault := Option.none }
  | none => { s with prog := s.prog.take s.pc }

/-- The launch state of a run (R150): the values of every register, condition bit and exception bit, the
program list and `EXC_POLICY` are arguments; `pc` is 0 and no fault is recorded (R24, R151). -/
def State.launch (a : List ArithWord) (x : List IndexWord) (c : Vector Bool 24) (exc : ExcBits)
    (prog : List Instr) (policy : ExcPolicy) : State where
  a := a
  x := x
  c := c
  exc := exc
  pc := 0
  fault := Option.none
  prog := prog
  policy := policy
  draws := 0

/-- Load a program from an image of instruction words and start it (R150): `pc = 0` and no fault recorded. -/
def State.loadProgram (s : State) (e : Encoding) (image : List Bool) : Option State :=
  (decodeProgram e image).map fun prog => { s with prog := prog, pc := 0, fault := Option.none }

end Sys2Proof.Machine
end

