-- ==== Sys2Proof/Machine/Operands.lean ====
section
/-! DEFINITION. The operand forms: which registers, pairs, literals and bytes an instruction reads
(10_state.md rules R10 to R13, 30_encoding.md rules R44 to R46, 44_compare_bytes.md rule R119), and how
the `i` field names condition bits (R45). A register number that names no register is refused (R44, D24). -/

namespace Sys2Proof.Machine

/-- Read `A[n]` for an operand, or refuse the instruction (R44). -/
def withA (s : State) (n : Nat) (f : ArithWord → Host.Outcome State Fault Refusal) :
    Host.Outcome State Fault Refusal :=
  match s.readA n with
  | some w => f w
  | none => .refused (.noArithRegister n)

/-- Read `X[n]` for an operand, or refuse the instruction (R44). -/
def withX (s : State) (n : Nat) (f : IndexWord → Host.Outcome State Fault Refusal) :
    Host.Outcome State Fault Refusal :=
  match s.readX n with
  | some w => f w
  | none => .refused (.noIndexRegister n)

/-- The two operands `A[j]` and `A[k]` of a format I compare (R41, R44). -/
def withArith (s : State) (j k : Nat) (f : ArithWord → ArithWord → Host.Outcome State Fault Refusal) :
    Host.Outcome State Fault Refusal :=
  withA s j fun u => withA s k fun v => f u v

/-- The two operands `X[j]` and `X[k]` of a format I compare (R41, R44). -/
def withIndex (s : State) (j k : Nat) (f : IndexWord → IndexWord → Host.Outcome State Fault Refusal) :
    Host.Outcome State Fault Refusal :=
  withX s j fun u => withX s k fun v => f u v

/-- The pair `(A[n], A[n+1])` of a double precision operand (R12). -/
def withPair (s : State) (n : Nat) (f : ArithPair → Host.Outcome State Fault Refusal) :
    Host.Outcome State Fault Refusal :=
  withArith s n (n + 1) fun u v => f (u, v)

/-- `j` or `k` is odd (R67, `CheckEven`). -/
def oddField (j k : Nat) : Bool := j % 2 == 1 || k % 2 == 1

/-- The two pairs of a double precision compare, whose fields are even (R12, R44). -/
def withPairs (s : State) (j k : Nat) (f : ArithPair → ArithPair → Host.Outcome State Fault Refusal) :
    Host.Outcome State Fault Refusal :=
  withPair s j fun p => withPair s k fun q => f p q

/-- The base of a `CBMA` segment: the leading two bits of `i`, the other three ignored (R45). -/
def baseOf8 (i : BitVec 5) : Nat := i.toNat - i.toNat % 8

/-- The base of a `CBMX` segment: the leading three bits of `i`, the other two ignored (R45). -/
def baseOf4 (i : BitVec 5) : Nat := i.toNat - i.toNat % 4

/-- The weight of the lowest bit of operand byte `n` (from 1) of a register of `width` bits: manual bits
`<8(n-1) .. 8n-1>` (R119; D1). -/
def byteLow (width n : Nat) : Nat := if Config.bit0Msb then width - 8 * n else 8 * n - 8

/-- `ByteA(w, n)`, `n = 1..6` (R119). -/
def byteA (w : ArithWord) (n : Nat) : Byte := w.extractLsb' (byteLow 48 n) 8

/-- `ByteX(w, n)`, `n = 1..3` (R119). -/
def byteX (w : IndexWord) (n : Nat) : Byte := w.extractLsb' (byteLow 24 n) 8

/-- `Test(w)` of an `A` register: "the low order 8 bits" (R119). -/
def testA (w : ArithWord) : Byte := w.extractLsb' 0 8

/-- `Test(w)` of an `X` register: "the low order 8 bits" (R119). -/
def testX (w : IndexWord) : Byte := w.extractLsb' 0 8

/-- The single precision operand `u`: a 1 in bit zero and 0's in the remaining bits (R82; D1). -/
def u48 : ArithWord := if Config.bit0Msb then 0x800000000000#48 else 0x000000000001#48

/-- `is_u(x)`, single precision (R82). -/
def isU (w : ArithWord) : Bool := w == u48

/-- `FP.is_u_d(hi, lo)` (R82, D12): true at `(U48, 0)`, false where `hi` is not `U48`, open elsewhere. -/
def isUD (fp : FP) (p : ArithPair) : Bool := p.1 == u48 && (p.2 == 0#48 || fp.isUDOpen p.2)

end Sys2Proof.Machine
end

