-- ==== Sys2Proof/Machine/Flags.lean ====
section
/-! DEFINITION. What a compare computes from its operands: the relations (40_compare_common.md rule R64,
42_compare_integer.md rule R99), the match vectors (44_compare_bytes.md rule R119), the floating-point
result bit (41_compare_float.md rules R92, R93), and the list of `SetC` calls an instruction makes. -/

namespace Sys2Proof.Machine

/-- `sint_N(w) = uint(w) - 2^N * w[N-1]`: two's complement (R5, R99, D2, log 9). -/
def sint {n : Nat} (w : BitVec n) : Int := (w.toNat : Int) - 2 ^ n * (if w.msb then 1 else 0)

/-- `sge48` and `sge24`: signed "greater than or equal" (R99). The choice of two's complement stands in
`sint` alone. -/
def sge {n : Nat} (a b : BitVec n) : Bool := decide (sint b ≤ sint a)

/-- Unsigned "greater than or equal": `uint(a) >= uint(b)` (R99). -/
def uge {n : Nat} (a b : BitVec n) : Bool := decide (b.toNat ≤ a.toNat)

/-- `MatchA(t, w)`: for each of the six operand bytes, is it identical to the test byte (R119). -/
def matchA (t : Byte) (w : ArithWord) : List Bool :=
  [t == byteA w 1, t == byteA w 2, t == byteA w 3, t == byteA w 4, t == byteA w 5, t == byteA w 6]

/-- `MatchX(t, w)`: for each of the three operand bytes, is it identical to the test byte (R119). -/
def matchX (t : Byte) (w : IndexWord) : List Bool :=
  [t == byteX w 1, t == byteX w 2, t == byteX w 3]

/-- `Any(m)` (R119). -/
def anyMatch (m : List Bool) : Bool := m.any id

/-- The `SetC` call of a single-bit compare: `SetC(i, r)` (R69). -/
def singleWrite (i : BitVec 5) (r : Bool) : List (Nat × Bool) := [(i.toNat, r)]

/-- `SetC(n, m1)`, `SetC(n+1, m2)`, and so on. -/
def laneWrites : Nat → List Bool → List (Nat × Bool)
  | _, [] => []
  | n, b :: m => (n, b) :: laneWrites (n + 1) m

/-- The `SetC` calls of a multiple byte compare: `SetC(ib, Any(m))`, then `SetC(ib + n, mn)` for each lane
(R121, R123). -/
def multipleWrites (ib : Nat) (m : List Bool) : List (Nat × Bool) := (ib, anyMatch m) :: laneWrites (ib + 1) m

/-- The end of a single-bit compare with result `r` that raises no `UO` (R69). -/
def State.setSingle (s : State) (i : BitVec 5) (r : Bool) : Host.Outcome State Fault Refusal :=
  .next (s.commit (singleWrite i r) false)

/-- The end of a multiple byte compare (R121, R123). -/
def State.setMultiple (s : State) (ib : Nat) (m : List Bool) : Host.Outcome State Fault Refusal :=
  .next (s.commit (multipleWrites ib m) false)

/-- Is the result of a floating-point compare a draw: an operand is unnormalized and is not `u` (R92, R93;
D11). `n` says unnormalized, `u` says `u`, of the first and the second operand. -/
def drawsResult (n1 u1 n2 u2 : Bool) : Bool := (n1 && !u1) || (n2 && !u2)

/-- The result bit of a floating-point compare and the state after it is computed (R92, R93), in the
order of the pseudocode: a draw, then 0 for an operand `u`, then the relation `r`. -/
def State.floatResult (s : State) (n1 u1 n2 u2 r : Bool) : Bool × State :=
  if drawsResult n1 u1 n2 u2 then s.draw
  else if u1 || u2 then (false, s)
  else (r, s)

/-- The end of a floating-point compare (R92, R93): the result bit, `UO` if either operand is
unnormalized, `SetC(i, r)`, `pc`. -/
def State.setFloat (s : State) (i : BitVec 5) (n1 u1 n2 u2 r : Bool) : Host.Outcome State Fault Refusal :=
  let res := s.floatResult n1 u1 n2 u2 r
  .next (res.2.commit (singleWrite i res.1) (n1 || n2))

end Sys2Proof.Machine
end

