-- ==== Sys2Proof/Machine/Bytes.lean ====
section
/-! DEFINITION. The four byte compares (44_compare_bytes.md). -/

namespace Sys2Proof.Machine

/-- Compare Bytes, Arithmetic (R120): did any operand byte match. -/
def execCba (i : BitVec 5) (j k : Nat) (s : State) : Host.Outcome State Fault Refusal :=
  withArith s j k fun a b => s.setSingle i (anyMatch (matchA (testA a) b))

/-- Compare Bytes, Multiple, Arithmetic (R121): seven bits from the base of the segment. -/
def execCbma (i : BitVec 5) (j k : Nat) (s : State) : Host.Outcome State Fault Refusal :=
  withArith s j k fun a b => s.setMultiple (baseOf8 i) (matchA (testA a) b)

/-- Compare Bytes, Index (R122): did any operand byte match. -/
def execCbx (i : BitVec 5) (j k : Nat) (s : State) : Host.Outcome State Fault Refusal :=
  withIndex s j k fun a b => s.setSingle i (anyMatch (matchX (testX a) b))

/-- Compare Bytes, Multiple, Index (R123): four bits from the base of the segment. -/
def execCbmx (i : BitVec 5) (j k : Nat) (s : State) : Host.Outcome State Fault Refusal :=
  withIndex s j k fun a b => s.setMultiple (baseOf4 i) (matchX (testX a) b)

end Sys2Proof.Machine
end

