-- ==== Sys2Proof/Machine/Float.lean ====
section
/-! DEFINITION. The eight floating-point compares (41_compare_float.md). The two shared procedures take
the record `FP` as an argument; each instruction gives them the hardware's own, `Config.fp`. -/

namespace Sys2Proof.Machine

/-- `FCmpS(REL, i, j, k)` (R92). -/
def fcmpS (fp : FP) (rel : ArithWord → ArithWord → Bool) (i : BitVec 5) (j k : Nat) (s : State) :
    Host.Outcome State Fault Refusal :=
  withArith s j k fun a b => s.setFloat i (fp.unnormS a) (isU a) (fp.unnormS b) (isU b) (rel a b)

/-- `FCmpD(REL, i, j, k)` (R93): an odd `j` or `k` raises `RS` before anything is read (R67). -/
def fcmpD (fp : FP) (rel : ArithPair → ArithPair → Bool) (i : BitVec 5) (j k : Nat) (s : State) :
    Host.Outcome State Fault Refusal :=
  if oddField j k then .next s.oddRegister
  else withPairs s j k fun p q =>
    s.setFloat i (fp.unnormD p) (isUD fp p) (fp.unnormD q) (isUD fp q) (rel p q)

/-- Compare, Greater or Equal, Normalized (R83). -/
def execCgen (i : BitVec 5) (j k : Nat) (s : State) : Host.Outcome State Fault Refusal :=
  fcmpS Config.fp Config.fp.geS i j k s

/-- Compare, Equal, Normalized (R84). -/
def execCeqn (i : BitVec 5) (j k : Nat) (s : State) : Host.Outcome State Fault Refusal :=
  fcmpS Config.fp Config.fp.eqS i j k s

/-- Compare, Greater or Equal, Double (R85). -/
def execCged (i : BitVec 5) (j k : Nat) (s : State) : Host.Outcome State Fault Refusal :=
  fcmpD Config.fp Config.fp.geD i j k s

/-- Compare, Equal, Double (R86). -/
def execCeqd (i : BitVec 5) (j k : Nat) (s : State) : Host.Outcome State Fault Refusal :=
  fcmpD Config.fp Config.fp.eqD i j k s

/-- Compare Magnitude, Greater or Equal, Normalized (R87). -/
def execCmgen (i : BitVec 5) (j k : Nat) (s : State) : Host.Outcome State Fault Refusal :=
  fcmpS Config.fp Config.fp.mgeS i j k s

/-- Compare Magnitude, Equal, Normalized (R88). -/
def execCmeqn (i : BitVec 5) (j k : Nat) (s : State) : Host.Outcome State Fault Refusal :=
  fcmpS Config.fp Config.fp.meqS i j k s

/-- Compare Magnitude Double, Greater or Equal (R89). -/
def execCmged (i : BitVec 5) (j k : Nat) (s : State) : Host.Outcome State Fault Refusal :=
  fcmpD Config.fp Config.fp.mgeD i j k s

/-- Compare Magnitude Double, Equal (R90). -/
def execCmeqd (i : BitVec 5) (j k : Nat) (s : State) : Host.Outcome State Fault Refusal :=
  fcmpD Config.fp Config.fp.meqD i j k s

end Sys2Proof.Machine
end

