-- ==== Sys2Proof/Machine/Index.lean ====
section
/-! DEFINITION. The six index compares on 24-bit index registers and literals (43_compare_index.md). -/

namespace Sys2Proof.Machine

/-- Compare, Greater or Equal, Index (R110). -/
def execCgex (i : BitVec 5) (j k : Nat) (s : State) : Host.Outcome State Fault Refusal :=
  withIndex s j k fun a b => s.setSingle i (sge a b)

/-- Compare, Equal, Index (R111): all 24 bits identical. -/
def execCeqx (i : BitVec 5) (j k : Nat) (s : State) : Host.Outcome State Fault Refusal :=
  withIndex s j k fun a b => s.setSingle i (a == b)

/-- Compare Unsigned, Greater or Equal, Index (R112). -/
def execCugex (i : BitVec 5) (j k : Nat) (s : State) : Host.Outcome State Fault Refusal :=
  withIndex s j k fun a b => s.setSingle i (uge a b)

/-- Compare Index with Constant, Greater or Equal (R113): `h` is used as it stands (R46). -/
def execCgexk (i : BitVec 5) (j : Nat) (h : Literal) (s : State) : Host.Outcome State Fault Refusal :=
  withX s j fun a => s.setSingle i (sge a h)

/-- Compare Index with Constant, Equal (R114). -/
def execCeqxk (i : BitVec 5) (j : Nat) (h : Literal) (s : State) : Host.Outcome State Fault Refusal :=
  withX s j fun a => s.setSingle i (a == h)

/-- Compare Unsigned Index with Constant, Greater or Equal (R115). -/
def execCugexk (i : BitVec 5) (j : Nat) (h : Literal) (s : State) : Host.Outcome State Fault Refusal :=
  withX s j fun a => s.setSingle i (uge a h)

end Sys2Proof.Machine
end

