-- ==== Sys2Proof/Machine/Integer.lean ====
section
/-! DEFINITION. The three integer compares on 48-bit arithmetic registers (42_compare_integer.md). -/

namespace Sys2Proof.Machine

/-- Compare, Greater or Equal, Integer (R100). -/
def execCgei (i : BitVec 5) (j k : Nat) (s : State) : Host.Outcome State Fault Refusal :=
  withArith s j k fun a b => s.setSingle i (sge a b)

/-- Compare, Equal, Integer (R101): all 48 bits identical. -/
def execCeqi (i : BitVec 5) (j k : Nat) (s : State) : Host.Outcome State Fault Refusal :=
  withArith s j k fun a b => s.setSingle i (a == b)

/-- Compare Unsigned, Greater or Equal, Integer (R102). -/
def execCugei (i : BitVec 5) (j k : Nat) (s : State) : Host.Outcome State Fault Refusal :=
  withArith s j k fun a b => s.setSingle i (uge a b)

end Sys2Proof.Machine
end

