-- ==== Sys2Proof/Machine/Dispatch.lean ====
section
/-! DEFINITION. One arm for each instruction of spec/opcode_table.json: a call of its meaning. -/

namespace Sys2Proof.Machine

/-- The meaning of each decoded instruction, on a state. -/
def exec (ins : Instr) (s : State) : Host.Outcome State Fault Refusal :=
  match ins with
  | .cgen i j k => Sys2Proof.Machine.execCgen i j k s
  | .ceqn i j k => Sys2Proof.Machine.execCeqn i j k s
  | .cged i j k => Sys2Proof.Machine.execCged i j k s
  | .ceqd i j k => Sys2Proof.Machine.execCeqd i j k s
  | .cmgen i j k => Sys2Proof.Machine.execCmgen i j k s
  | .cmeqn i j k => Sys2Proof.Machine.execCmeqn i j k s
  | .cmged i j k => Sys2Proof.Machine.execCmged i j k s
  | .cmeqd i j k => Sys2Proof.Machine.execCmeqd i j k s
  | .cgei i j k => Sys2Proof.Machine.execCgei i j k s
  | .ceqi i j k => Sys2Proof.Machine.execCeqi i j k s
  | .cugei i j k => Sys2Proof.Machine.execCugei i j k s
  | .cgex i j k => Sys2Proof.Machine.execCgex i j k s
  | .ceqx i j k => Sys2Proof.Machine.execCeqx i j k s
  | .cugex i j k => Sys2Proof.Machine.execCugex i j k s
  | .cgexk i j h => Sys2Proof.Machine.execCgexk i j h s
  | .ceqxk i j h => Sys2Proof.Machine.execCeqxk i j h s
  | .cugexk i j h => Sys2Proof.Machine.execCugexk i j h s
  | .cba i j k => Sys2Proof.Machine.execCba i j k s
  | .cbma i j k => Sys2Proof.Machine.execCbma i j k s
  | .cbx i j k => Sys2Proof.Machine.execCbx i j k s
  | .cbmx i j k => Sys2Proof.Machine.execCbmx i j k s

end Sys2Proof.Machine
end

