-- ==== Sys2Proof/Machine/Step.lean ====
section
/-! DEFINITION. One step of the machine: the instruction `prog[pc]` executes completely (10_state.md rule
R22), no step is taken from a faulted state (60_exceptions.md rule R131), and a run ends at
`pc = length(prog)` (70_reset_and_hazards.md rule R153). -/

namespace Sys2Proof.Machine

/-- One step. A recorded fault stops it (R131), the instruction at `pc` runs (R22), and with no
instruction at `pc` there is no step (R153). -/
def step (s : State) : Host.Outcome State Fault Refusal :=
  match s.fault with
  | some r => .fault (.recorded r)
  | none =>
    match s.fetch with
    | some i => exec i s
    | none => .refused s.noInstruction

/-- `s` with the instruction that a word of spec/opcode_table.json spells placed where the very next step
runs it (log 1). -/
def State.withFetchWord (s : State) (nbits w : Nat) : State := s.placeTableWord nbits w

end Sys2Proof.Machine
end

