-- ==== Sys2Proof/Safety.lean ====
section
/-! DEFINITION. The terms that claims about the machine use: final and faulted states, the invariant of
every run, the effects of an instruction as the rules describe them (written without the model's own
operations), which bits and registers an instruction touches, and the properties of the record `FP` that
a claim may assume. -/

namespace Sys2Proof

open Machine

/-- The state in which a run is over: `pc = length(prog)` and no fault recorded (70_reset_and_hazards.md
rule R153). -/
def Machine.State.isFinal (s : State) : Prop := s.pc = s.prog.length ∧ s.fault = none

/-- A fault is recorded: the state is never final and takes no step (60_exceptions.md rule R131). -/
def Machine.State.isFaulted (s : State) : Prop := s.fault.isSome = true

/-- Every exception of `e` is one of `f`. -/
def Machine.ExcBits.within (e f : ExcBits) : Prop :=
  (e.uo = true → f.uo = true) ∧ (e.cc = true → f.cc = true) ∧ (e.rs = true → f.rs = true)

/-- What the spec asks of the open encoding parameters: `OPMAP` is an injective map to `op` values (R3,
R48), and the fields of each format fit into its word (R41, R42). -/
structure Encoding.Valid (e : Encoding) : Prop where
  opFits : ∀ m, e.opMap m < 2 ^ e.wOp
  opInjective : ∀ m m', e.opMap m = e.opMap m' → m = m'
  fieldsFit : ∀ m, e.endAt m ≤ (e.format m).len

/-- The invariant of every run, for register fields of `wR` bits: the register counts meet the constraints of
00_scope.md rule R3 at `W_R = wR`, the program list holds well-formed instructions, `pc` lies in the program
list or at its end (R153), and a recorded fault names at least one exception, only exceptions whose sticky
bits are set, and the instruction at which the run stopped (R131). -/
structure Machine.State.Inv (s : State) (wR : Nat) : Prop where
  arithCount : 2 ≤ s.a.length ∧ s.a.length ≤ 2 ^ wR ∧ s.a.length % 2 = 0
  indexCount : 1 ≤ s.x.length ∧ s.x.length ≤ 2 ^ wR
  progWellFormed : ∀ i ∈ s.prog, i.wellFormed wR = true
  pcInProgram : s.pc ≤ s.prog.length
  faultNamed : ∀ r, s.fault = some r →
    r.raised ≠ ExcBits.none ∧ r.raised.within s.exc ∧ r.pc = s.pc ∧ s.pc < s.prog.length

/-- What the end of an instruction that raised exactly `raised` does, on every component but the
condition bits and the draw count (R59, R68, R130, R131, R133): no register, program or parameter
changes; the bits raised are set and no bit is cleared; with an exception under the policy `fault` a
fault naming exactly the exceptions raised and the `pc` is recorded and `pc` stays; otherwise `pc`
advances by one and no fault is recorded. -/
structure Retires (raised : ExcBits) (s t : State) : Prop where
  a : t.a = s.a
  x : t.x = s.x
  prog : t.prog = s.prog
  policy : t.policy = s.policy
  uo : t.exc.uo = (s.exc.uo || raised.uo)
  cc : t.exc.cc = (s.exc.cc || raised.cc)
  rs : t.exc.rs = (s.exc.rs || raised.rs)
  stops : raised ≠ ExcBits.none → s.policy = .fault →
    t.fault = some { raised := raised, pc := s.pc } ∧ t.pc = s.pc
  goesOn : raised = ExcBits.none ∨ s.policy = .continue → t.fault = s.fault ∧ t.pc = s.pc + 1

/-- What a list of `SetC` calls does to the condition bits and to `CC` (R60), each bit number being written
once: an existing bit takes its value, a bit that no call names keeps its own, and `CC` is raised exactly by
0 to bit 24 and 1 to bit 25. -/
structure SetCEffect (writes : List (Nat × Bool)) (s t : State) : Prop where
  once : (writes.map Prod.fst).Nodup
  inRange : ∀ n v, (n, v) ∈ writes → n ≤ 31
  written : ∀ n v, (n, v) ∈ writes → n < 24 → t.c[n]? = some v
  kept : ∀ n, (∀ v, (n, v) ∉ writes) → t.c[n]? = s.c[n]?
  cc : t.exc.cc = true ↔ s.exc.cc = true ∨ (24, false) ∈ writes ∨ (25, true) ∈ writes

/-- The whole effect of a single-bit compare with result `r` (R60 to R62, R69): condition bit `c[i]`
takes `r` if it exists and no other condition bit changes; `CC` is raised exactly when the result 0 goes
to bit 24 or the result 1 to bit 25; `UO` is raised exactly when `uo`, `RS` never. -/
structure SingleBitEffect (i : BitVec 5) (r uo : Bool) (s t : State) : Prop where
  c : ∀ n, n < 24 → t.c[n]? = if n = i.toNat then some r else s.c[n]?
  retires : Retires { uo := uo, cc := decide (i.toNat = 24 ∧ r = false ∨ i.toNat = 25 ∧ r = true), rs := false } s t

/-- The whole effect of a multiple byte compare whose segment begins at bit `base`, with `count` lanes
numbered from 1 (R121, R123): bit `base` tells whether any lane matched, bit `base + n` whether lane `n`
did, every other condition bit is unchanged, and only the segment at 24 can raise `CC`: when no lane
matches (`c24` to 0) or when lane 1 does (`c25` to 1). -/
structure MultipleEffect (base count : Nat) (lane : Nat → Bool) (s t : State) : Prop where
  summary : base < 24 → ∃ b : Bool, t.c[base]? = some b ∧ (b = true ↔ ∃ m, 1 ≤ m ∧ m ≤ count ∧ lane m = true)
  lanes : ∀ m, 1 ≤ m → m ≤ count → base + m < 24 → t.c[base + m]? = some (lane m)
  others : ∀ n, n < 24 → n < base ∨ base + count < n → t.c[n]? = s.c[n]?
  draws : t.draws = s.draws
  retires : ∃ cc : Bool,
    (cc = true ↔ base = 24 ∧ ((¬ ∃ m, 1 ≤ m ∧ m ≤ count ∧ lane m = true) ∨ lane 1 = true)) ∧
    Retires { uo := false, cc := cc, rs := false } s t

/-- The result bit of a floating-point compare (R66, R82, R92, R93): a draw `d` when an operand is
unnormalized and is not `u`; else 0 when an operand is `u`; else the relation. `n` says unnormalized, `u`
says `u`, of the first and the second operand. -/
def floatBit (n1 u1 n2 u2 d rel : Prop) : Prop :=
  ((n1 ∧ ¬ u1) ∨ (n2 ∧ ¬ u2) → d) ∧ (¬ ((n1 ∧ ¬ u1) ∨ (n2 ∧ ¬ u2)) → ¬ (u1 ∨ u2) ∧ rel)

/-- The whole effect of a floating-point compare (R92, R93): the single-bit effect of the result bit of
`floatBit`, with `UO` raised exactly when an operand is unnormalized; one draw is made exactly when the
result is one. -/
structure FloatEffect (i : BitVec 5) (n1 u1 n2 u2 rel : Prop) (s t : State) : Prop where
  result : ∃ r uo : Bool, (r = true ↔ floatBit n1 u1 n2 u2 (Config.draw s.draws = true) rel) ∧
    (uo = true ↔ n1 ∨ n2) ∧ SingleBitEffect i r uo s t
  drawn : (n1 ∧ ¬ u1) ∨ (n2 ∧ ¬ u2) → t.draws = s.draws + 1
  notDrawn : ¬ ((n1 ∧ ¬ u1) ∨ (n2 ∧ ¬ u2)) → t.draws = s.draws

/-- `is_u(x)` (R82; D1): a 1 in bit zero and 0's in the remaining bits. -/
def IsUSingle (w : ArithWord) : Prop := w = 0x800000000000#48

/-- `FP.is_u_d(p)` (R82; D12). -/
def IsUDouble (fp : FP) (p : ArithPair) : Prop :=
  p.1 = 0x800000000000#48 ∧ (p.2 = 0#48 ∨ fp.isUDOpen p.2 = true)

/-- The effect of `FCmpS` on two words (R92). -/
def SingleFloatEffect (fp : FP) (rel : ArithWord → ArithWord → Bool) (i : BitVec 5) (v w : ArithWord)
    (s t : State) : Prop :=
  FloatEffect i (fp.unnormS v = true) (IsUSingle v) (fp.unnormS w = true) (IsUSingle w) (rel v w = true) s t

/-- The effect of `FCmpD` on two pairs, `j` and `k` even (R93). -/
def DoubleFloatEffect (fp : FP) (rel : ArithPair → ArithPair → Bool) (i : BitVec 5) (p q : ArithPair)
    (s t : State) : Prop :=
  FloatEffect i (fp.unnormD p = true) (IsUDouble fp p) (fp.unnormD q = true) (IsUDouble fp q)
    (rel p q = true) s t

/-- The state after an odd register number in a double precision compare (R67, R134; D4): `RS` is set and
a fault naming `RS` alone and the `pc` is recorded, and nothing else changes. -/
def OddRegisterState (s : State) : State :=
  { s with
    exc := { uo := s.exc.uo, cc := s.exc.cc, rs := true }
    fault := some { raised := { uo := false, cc := false, rs := true }, pc := s.pc } }

/-- The format I rows of the opcode map of 30_encoding.md rule R49. -/
def formatIRows : List (Nat × (BitVec 5 → Nat → Nat → Instr)) :=
  [(0x001, .cgen), (0x002, .ceqn), (0x003, .cged), (0x004, .ceqd), (0x005, .cmgen), (0x006, .cmeqn),
   (0x007, .cmged), (0x008, .cmeqd), (0x009, .cgei), (0x00A, .ceqi), (0x00B, .cugei), (0x00C, .cgex),
   (0x00D, .ceqx), (0x00E, .cugex), (0x012, .cba), (0x013, .cbma), (0x014, .cbx), (0x015, .cbmx)]

/-- The format II rows of the opcode map of 30_encoding.md rule R49. -/
def formatIIRows : List (Nat × (BitVec 5 → Nat → Literal → Instr)) :=
  [(0x00F, .cgexk), (0x010, .ceqxk), (0x011, .cugexk)]

/-- The same instruction with another value in its `i` field. -/
def Instr.withBit (b : BitVec 5) : Instr → Instr
  | .cgen _ j k => .cgen b j k
  | .ceqn _ j k => .ceqn b j k
  | .cged _ j k => .cged b j k
  | .ceqd _ j k => .ceqd b j k
  | .cmgen _ j k => .cmgen b j k
  | .cmeqn _ j k => .cmeqn b j k
  | .cmged _ j k => .cmged b j k
  | .cmeqd _ j k => .cmeqd b j k
  | .cgei _ j k => .cgei b j k
  | .ceqi _ j k => .ceqi b j k
  | .cugei _ j k => .cugei b j k
  | .cgex _ j k => .cgex b j k
  | .ceqx _ j k => .ceqx b j k
  | .cugex _ j k => .cugex b j k
  | .cgexk _ j h => .cgexk b j h
  | .ceqxk _ j h => .ceqxk b j h
  | .cugexk _ j h => .cugexk b j h
  | .cba _ j k => .cba b j k
  | .cbma _ j k => .cbma b j k
  | .cbx _ j k => .cbx b j k
  | .cbmx _ j k => .cbmx b j k

/-- Is `n` one of the condition bit numbers that the instruction's `i` field designates (R17, R45): the
seven of a segment for `CBMA`, the four of a segment for `CBMX`, one for the other 19. -/
def Instr.designates : Instr → Nat → Prop
  | .cgen i _ _, n => n = i.toNat
  | .ceqn i _ _, n => n = i.toNat
  | .cged i _ _, n => n = i.toNat
  | .ceqd i _ _, n => n = i.toNat
  | .cmgen i _ _, n => n = i.toNat
  | .cmeqn i _ _, n => n = i.toNat
  | .cmged i _ _, n => n = i.toNat
  | .cmeqd i _ _, n => n = i.toNat
  | .cgei i _ _, n => n = i.toNat
  | .ceqi i _ _, n => n = i.toNat
  | .cugei i _ _, n => n = i.toNat
  | .cgex i _ _, n => n = i.toNat
  | .ceqx i _ _, n => n = i.toNat
  | .cugex i _ _, n => n = i.toNat
  | .cgexk i _ _, n => n = i.toNat
  | .ceqxk i _ _, n => n = i.toNat
  | .cugexk i _ _, n => n = i.toNat
  | .cba i _ _, n => n = i.toNat
  | .cbma i _ _, n => n / 8 = i.toNat / 8 ∧ n % 8 ≠ 7
  | .cbx i _ _, n => n = i.toNat
  | .cbmx i _ _, n => n / 4 = i.toNat / 4

/-- The numbers of the `A` registers an instruction reads (the access table of R23). -/
def Instr.readsA : Instr → List Nat
  | .cgen _ j k => [j, k]
  | .ceqn _ j k => [j, k]
  | .cged _ j k => [j, j + 1, k, k + 1]
  | .ceqd _ j k => [j, j + 1, k, k + 1]
  | .cmgen _ j k => [j, k]
  | .cmeqn _ j k => [j, k]
  | .cmged _ j k => [j, j + 1, k, k + 1]
  | .cmeqd _ j k => [j, j + 1, k, k + 1]
  | .cgei _ j k => [j, k]
  | .ceqi _ j k => [j, k]
  | .cugei _ j k => [j, k]
  | .cgex _ _ _ => []
  | .ceqx _ _ _ => []
  | .cugex _ _ _ => []
  | .cgexk _ _ _ => []
  | .ceqxk _ _ _ => []
  | .cugexk _ _ _ => []
  | .cba _ j k => [j, k]
  | .cbma _ j k => [j, k]
  | .cbx _ _ _ => []
  | .cbmx _ _ _ => []

/-- The numbers of the `X` registers an instruction reads (the access table of R23). -/
def Instr.readsX : Instr → List Nat
  | .cgen _ _ _ => []
  | .ceqn _ _ _ => []
  | .cged _ _ _ => []
  | .ceqd _ _ _ => []
  | .cmgen _ _ _ => []
  | .cmeqn _ _ _ => []
  | .cmged _ _ _ => []
  | .cmeqd _ _ _ => []
  | .cgei _ _ _ => []
  | .ceqi _ _ _ => []
  | .cugei _ _ _ => []
  | .cgex _ j k => [j, k]
  | .ceqx _ j k => [j, k]
  | .cugex _ j k => [j, k]
  | .cgexk _ j _ => [j]
  | .ceqxk _ j _ => [j]
  | .cugexk _ j _ => [j]
  | .cba _ _ _ => []
  | .cbma _ _ _ => []
  | .cbx _ j k => [j, k]
  | .cbmx _ j k => [j, k]

/-- The register fields of a double precision compare; none for the other 17 instructions. -/
def Instr.doubleFields : Instr → Option (Nat × Nat)
  | .cgen _ _ _ => none
  | .ceqn _ _ _ => none
  | .cged _ j k => some (j, k)
  | .ceqd _ j k => some (j, k)
  | .cmgen _ _ _ => none
  | .cmeqn _ _ _ => none
  | .cmged _ j k => some (j, k)
  | .cmeqd _ j k => some (j, k)
  | .cgei _ _ _ => none
  | .ceqi _ _ _ => none
  | .cugei _ _ _ => none
  | .cgex _ _ _ => none
  | .ceqx _ _ _ => none
  | .cugex _ _ _ => none
  | .cgexk _ _ _ => none
  | .ceqxk _ _ _ => none
  | .cugexk _ _ _ => none
  | .cba _ _ _ => none
  | .cbma _ _ _ => none
  | .cbx _ _ _ => none
  | .cbmx _ _ _ => none

/-- The eight floating-point compares: the only ones that can raise `UO` (R66, R132). -/
def Instr.isFloat : Instr → Prop
  | .cgen _ _ _ => True
  | .ceqn _ _ _ => True
  | .cged _ _ _ => True
  | .ceqd _ _ _ => True
  | .cmgen _ _ _ => True
  | .cmeqn _ _ _ => True
  | .cmged _ _ _ => True
  | .cmeqd _ _ _ => True
  | .cgei _ _ _ => False
  | .ceqi _ _ _ => False
  | .cugei _ _ _ => False
  | .cgex _ _ _ => False
  | .ceqx _ _ _ => False
  | .cugex _ _ _ => False
  | .cgexk _ _ _ => False
  | .ceqxk _ _ _ => False
  | .cugexk _ _ _ => False
  | .cba _ _ _ => False
  | .cbma _ _ _ => False
  | .cbx _ _ _ => False
  | .cbmx _ _ _ => False

/-- A double precision compare with an odd register number (R67). -/
def Instr.oddDouble (i : Instr) : Prop :=
  ∃ j k, i.doubleFields = some (j, k) ∧ (j % 2 = 1 ∨ k % 2 = 1)

/-- Every register the instruction reads exists (R44, D24). A double precision compare with an odd
register number reads none (R67). -/
def Instr.operandsExist (i : Instr) (s : State) : Prop :=
  i.oddDouble ∨ ((∀ n ∈ i.readsA, n < s.a.length) ∧ (∀ n ∈ i.readsX, n < s.x.length))

/-- The laws that 41_compare_float.md rule R91 lists for one pair of relations, on the arguments that are
normalized and not `u`. -/
structure RelationLaws {α : Type} (ok : α → Prop) (ge eq : α → α → Bool) : Prop where
  ge_refl : ∀ v, ok v → ge v v = true
  eq_refl : ∀ v, ok v → eq v v = true
  total : ∀ v w, ok v → ok w → ge v w = true ∨ ge w v = true
  eq_iff : ∀ v w, ok v → ok w → (eq v w = true ↔ ge v w = true ∧ ge w v = true)
  ge_trans : ∀ v w z, ok v → ok w → ok z → ge v w = true → ge w z = true → ge v z = true

/-- A single precision operand that is normalized and not `u`. -/
def NormalSingle (fp : FP) (w : ArithWord) : Prop := fp.unnormS w = false ∧ ¬ IsUSingle w

/-- A double precision operand that is normalized and not `u`. -/
def NormalDouble (fp : FP) (p : ArithPair) : Prop := fp.unnormD p = false ∧ ¬ IsUDouble fp p

/-- The properties of a record `FP` that a claim may assume (R91). Symmetry and transitivity of the
equalities follow from `eq_iff` and `ge_trans`. -/
structure FP.Lawful (fp : FP) : Prop where
  single : RelationLaws (NormalSingle fp) fp.geS fp.eqS
  singleMagnitude : RelationLaws (NormalSingle fp) fp.mgeS fp.meqS
  singleEqual : ∀ v w, NormalSingle fp v → NormalSingle fp w → fp.eqS v w = true → fp.meqS v w = true
  double : RelationLaws (NormalDouble fp) fp.geD fp.eqD
  doubleMagnitude : RelationLaws (NormalDouble fp) fp.mgeD fp.meqD
  doubleEqual : ∀ p q, NormalDouble fp p → NormalDouble fp q → fp.eqD p q = true → fp.meqD p q = true

end Sys2Proof
end

