-- ==== Sys2Proof/Certificates/Slice0/Obligations.lean ====
section
/-! DEFINITION. The statements of this model, for the provers. Each docstring names the rule of spec/ it
formalises; the terms are those of Sys2Proof/Safety.lean. The machine has no memory (20_memory.md rule
R30), so no frame speaks of one. Every effect says how `pc` advances and what a raised exception does as
rules R22, R68 and R131 have it, which the spec marks as its own decisions D7, D17 and D3 (log 12, log 22, log 4);
the signed order rests on D2 (log 9), the byte lanes and the pattern of `u` on D1 (log 8), the draws on D11
(log 6). -/

open Sys2Proof Sys2Proof.Machine

/-! ## Encoding: 30_encoding.md. The parameters of R48 are arguments; `encRef` is the reference instance
`ENC_REF` of R49 (the spec's own choice, log 11) -/

/-- Whatever the open encoding parameters, decoding the word of any well-formed instruction gives it back,
whatever bits follow (R48: `OPMAP` is injective, and the length is told by `op`). -/
def Obligations.DecodeOfEncode : Prop :=
  ∀ (e : Encoding) (i : Instr) (rest : List Bool), e.Valid → i.wellFormed e.wR = true →
    decode e (encode e i ++ rest) = .instr i rest

/-- Whatever the open encoding parameters, what the decoder accepts is a well-formed instruction and exactly
the bits that spell it: no two words mean the same instruction. -/
def Obligations.EncodeOfDecode : Prop :=
  ∀ (e : Encoding) (bits rest : List Bool) (i : Instr), e.Valid → decode e bits = .instr i rest →
    i.wellFormed e.wR = true ∧ encode e i ++ rest = bits

/-- A word has `LEN_I` or `LEN_II` bits (R48), and under `ENC_REF` it is
`op * 2^15 + i * 2^10 + j * 2^5 + k` in 24 bits for format I and `op * 2^39 + i * 2^34 + j * 2^29 + h` in 48
bits for format II, `op` as the opcode map gives it (R49). -/
def Obligations.EncodedWordFormula : Prop :=
  (∀ (e : Encoding) (i : Instr), e.Valid → (encode e i).length = (e.format i.mnemonic).len) ∧
  (∀ row ∈ formatIRows, ∀ (i : BitVec 5) (j k : Nat), j < 32 → k < 32 →
    encode encRef (row.2 i j k) = bitsOf 24 (row.1 * 2 ^ 15 + i.toNat * 2 ^ 10 + j * 2 ^ 5 + k)) ∧
  (∀ row ∈ formatIIRows, ∀ (i : BitVec 5) (j : Nat) (h : Literal), j < 32 →
    encode encRef (row.2 i j h) = bitsOf 48 (row.1 * 2 ^ 39 + i.toNat * 2 ^ 34 + j * 2 ^ 29 + h.toNat))

/-- Under `ENC_REF` a word is the instruction of a row when `w AND mask = match` (R49), and only then: masks
`FF8000` and `FF801F000000`. -/
def Obligations.WordMatchesItsRow : Prop :=
  (∀ row ∈ formatIRows, ∀ (w : Nat) (rest : List Bool), w < 2 ^ 24 →
    (w &&& 0xFF8000 = row.1 * 2 ^ 15 ↔
      ∃ (i : BitVec 5) (j k : Nat), decode encRef (bitsOf 24 w ++ rest) = .instr (row.2 i j k) rest)) ∧
  (∀ row ∈ formatIIRows, ∀ (w : Nat) (rest : List Bool), w < 2 ^ 48 →
    (w &&& 0xFF801F000000 = row.1 * 2 ^ 39 ↔
      ∃ (i : BitVec 5) (j : Nat) (h : Literal), decode encRef (bitsOf 48 w ++ rest) = .instr (row.2 i j h) rest))

/-- What the decoder refuses, by name. Whatever the open parameters: an `op` value that `OPMAP` gives no
instruction, and a list that ends before its `op` field does (U11; R50). Under `ENC_REF` (R49): any `op`
value outside 1 to 21, a 48-bit word with a pad bit set, and a list that ends before the word of its `op`
value does. -/
def Obligations.UndefinedWordsRefused : Prop :=
  (∀ (e : Encoding) (op : Nat) (rest : List Bool), op < 2 ^ e.wOp → (∀ m, e.opMap m ≠ op) →
    decode e (bitsOf e.wOp op ++ rest) = .bad (.undefinedOp op)) ∧
  (∀ (e : Encoding) (bits : List Bool), bits.length < e.wOp → decode e bits = .bad .truncated) ∧
  (∀ (op : Nat) (rest : List Bool), op < 2 ^ 9 → op = 0 ∨ 21 < op →
    decode encRef (bitsOf 9 op ++ rest) = .bad (.undefinedOp op)) ∧
  (∀ (w : Nat) (rest : List Bool), w < 2 ^ 48 → 15 ≤ w / 2 ^ 39 → w / 2 ^ 39 ≤ 17 → w / 2 ^ 24 % 32 ≠ 0 →
    decode encRef (bitsOf 48 w ++ rest) = .bad (.unusedNotZero (bitsOf 5 (w / 2 ^ 24 % 32)))) ∧
  (∀ (op : Nat) (rest : List Bool), 1 ≤ op → op ≤ 21 →
    rest.length < (if 15 ≤ op ∧ op ≤ 17 then 39 else 15) →
    decode encRef (bitsOf 9 op ++ rest) = .bad .truncated)

/-- A few words written out from the spec (95_test_vectors.md section 2.8), one for each family. -/
def Obligations.SampleWordsDecode : Prop :=
  decodeTableWord 24 0x008C44 = some (.cgen 3 2 4) ∧
  decodeTableWord 24 0x018C44 = some (.cged 3 2 4) ∧
  decodeTableWord 24 0x048C44 = some (.cgei 3 2 4) ∧
  decodeTableWord 24 0x060C44 = some (.cgex 3 2 4) ∧
  decodeTableWord 48 0x086420000007 = some (.ceqxk 25 1 7) ∧
  decodeTableWord 24 0x09F422 = some (.cbma 29 1 2) ∧
  decodeTableWord 24 0x0B0000 = none ∧
  decodeTableWord 48 0x078C2100000A = none

/-- Whatever the open encoding parameters, an image made of the words of well-formed instructions, one after
another, spells exactly that program list (R31, R48; the placement of words is the model's own, log 11). -/
def Obligations.ProgramImageDecodes : Prop :=
  ∀ (e : Encoding) (p : List Instr), e.Valid → (∀ i ∈ p, i.wellFormed e.wR = true) →
    decodeProgram e (p.flatMap (encode e)) = some p

/-! ## Stepping: 10_state.md rule R22, 60_exceptions.md rule R131, 70_reset_and_hazards.md rule R153 -/

/-- A step runs the instruction at `pc` (R22), and nothing is added around it: the `pc` is advanced by the
instruction itself. -/
def Obligations.StepRunsInstructionAtPc : Prop :=
  ∀ (s : State) (i : Instr), s.fault = none → s.prog[s.pc]? = some i → step s = exec i s

/-- A word of the opcode table placed for the next step is decoded, and the next step runs exactly the
instruction it spells, on a state that differs in the program list and the fault record alone. -/
def Obligations.PlacedWordRuns : Prop :=
  ∀ (s : State) (nbits w : Nat) (i : Instr), decodeTableWord nbits w = some i →
    step (s.withFetchWord nbits w) = exec i (s.withFetchWord nbits w) ∧
    s.withFetchWord nbits w = { s with prog := (s.withFetchWord nbits w).prog, fault := none } ∧
    ∀ n, n ≠ s.pc → n < s.prog.length → (s.withFetchWord nbits w).prog[n]? = s.prog[n]?

/-- When no step is taken. A faulted state takes none, and the stop names the exceptions and the `pc`
recorded (R131: "no later step is taken"; the spec's own decision D3). With no fault recorded a step is
refused for want of an instruction exactly when `pc` is at the end of the program list or beyond it, and at
the end the refusal says that the run is over (R153; that a run that is over is refused, not stuttered, is
the model's choice, log 13). -/
def Obligations.NoStepWhenFaultedOrOver : Prop :=
  (∀ (s : State) (r : FaultRecord), s.fault = some r → step s = .fault (.recorded r)) ∧
  (∀ s : State, s.fault = none →
    (step s = .refused .runOver ↔ s.pc = s.prog.length) ∧
    (step s = .refused .pcBeyondProgram ↔ s.prog.length < s.pc))

/-! ## Reset (10_state.md rule R24, 70_reset_and_hazards.md rule R150) -/

/-- The one value the spec gives at launch: `pc` is 0 (R24). The other clauses are the model's choices of
log 1 to log 4: no exception bit is set, no condition bit is set, no fault is recorded, no program is
loaded, the policy is the default, and every register holds 0. -/
def Obligations.ResetState : Prop :=
  State.reset.pc = 0 ∧ State.reset.exc = ExcBits.none ∧ State.reset.fault = none ∧
  State.reset.prog = [] ∧ State.reset.policy = .fault ∧ State.reset.s0 = 0#24 ∧
  (∀ n, n < 32 → State.reset.a[n]? = some 0#48 ∧ State.reset.x[n]? = some 0#24) ∧
  (∀ n, 32 ≤ n → State.reset.a[n]? = none ∧ State.reset.x[n]? = none)

/-- The state after reset, with its 32 registers in each file (log 3), meets the invariant for every width
`W_R` that can name them. -/
def Obligations.ResetMeetsInv : Prop := ∀ wR, 5 ≤ wR → State.reset.Inv wR

/-- A launch state meets the invariant whatever the registers, the condition bits, the exception bits and
`EXC_POLICY` hold, if the register counts meet R3 and the program's instructions are well formed: every
rule holds from the first step for any launch state (R150, R152), at any `W_R`. -/
def Obligations.LaunchMeetsInv : Prop :=
  ∀ (wR : Nat) (a : List ArithWord) (x : List IndexWord) (c : Vector Bool 24) (exc : ExcBits)
    (prog : List Instr) (policy : ExcPolicy),
    2 ≤ a.length → a.length ≤ 2 ^ wR → a.length % 2 = 0 → 1 ≤ x.length → x.length ≤ 2 ^ wR →
    (∀ i ∈ prog, i.wellFormed wR = true) →
    (State.launch a x c exc prog policy).Inv wR ∧ (State.launch a x c exc prog policy).pc = 0

/-! ## `SetC` and `S0` (40_compare_common.md rules R60 to R62, 10_state.md rule R16) -/

/-- `SetC(n, v)` followed by the end of the instruction, for every bit number the `i` field can name
(R60): an existing bit takes the value and no other bit changes; 0 to `c24` and 1 to `c25` raise `CC`; in
every other case the result is lost. -/
def Obligations.SetCRule : Prop :=
  ∀ (s : State) (i : BitVec 5) (v : Bool),
    SingleBitEffect i v false s (s.commit [(i.toNat, v)] false) ∧ (s.commit [(i.toNat, v)] false).draws = s.draws

/-- `SetC` is the one way an instruction writes a condition bit (R60, R62). What any of the 21 instructions
does to the condition bits and to `CC` is the effect of `SetC` calls, one for each bit number its `i` field
designates (R17, R45), and the same calls whatever the condition bits held before: the previous value is not
read. Which value each call writes is left to the result statements. That a double precision compare with an
odd register number makes no `SetC` call, so writes no condition bit and raises no `CC`, is a choice: the
source does not say (R67), and the model follows the spec's own decision D4 (log 5). Nothing is said of `pc`
or of what follows a raised exception. -/
def Obligations.SetCIsTheOneWay : Prop :=
  ∀ (i : Instr) (s t : State), exec i s = .next t →
    ∃ writes : List (Nat × Bool),
      (∀ n, (∃ v, (n, v) ∈ writes) ↔ i.designates n ∧ ¬ i.oddDouble) ∧
      ∀ c' : Vector Bool 24, ∃ t', exec i { s with c := c' } = .next t' ∧
        SetCEffect writes { s with c := c' } t'

/-- A compare whose `i` field names nonexistent condition bits only loses its result (R61): it still
executes wherever its operands exist, no condition bit changes, and it raises `UO` and `RS` exactly as the
same instruction does with any other `i` field. -/
def Obligations.LostResult : Prop :=
  ∀ (i : Instr) (s : State), i.operandsExist s → (∀ n, i.designates n → 24 ≤ n) →
    ∃ t, exec i s = .next t ∧ t.c = s.c ∧
      ∀ (b : BitVec 5) (t' : State), exec (i.withBit b) s = .next t' →
        t.exc.uo = t'.exc.uo ∧ t.exc.rs = t'.exc.rs

/-- Special register `S0` is the 24 condition bits, `c[n] = S0[23-n]` (R16; D21, log 18). -/
def Obligations.SpecialRegisterPacking : Prop :=
  ∀ (s : State) (n : Nat) (h : n < 24), s.s0.getLsbD (23 - n) = s.c[n]

/-! ## Floating-point compares (41_compare_float.md) -/

/-- CGEN (R83) is `FCmpS` (R92) with the relation `FP.ge_s`. -/
def Obligations.CgenResult : Prop :=
  ∀ (s : State) (i : BitVec 5) (j k : Nat) (v w : ArithWord), s.a[j]? = some v → s.a[k]? = some w →
    ∃ t, exec (.cgen i j k) s = .next t ∧ SingleFloatEffect Config.fp Config.fp.geS i v w s t

/-- CEQN (R84) is `FCmpS` (R92) with the relation `FP.eq_s`. -/
def Obligations.CeqnResult : Prop :=
  ∀ (s : State) (i : BitVec 5) (j k : Nat) (v w : ArithWord), s.a[j]? = some v → s.a[k]? = some w →
    ∃ t, exec (.ceqn i j k) s = .next t ∧ SingleFloatEffect Config.fp Config.fp.eqS i v w s t

/-- CMGEN (R87) is `FCmpS` (R92) with the relation `FP.mge_s`. -/
def Obligations.CmgenResult : Prop :=
  ∀ (s : State) (i : BitVec 5) (j k : Nat) (v w : ArithWord), s.a[j]? = some v → s.a[k]? = some w →
    ∃ t, exec (.cmgen i j k) s = .next t ∧ SingleFloatEffect Config.fp Config.fp.mgeS i v w s t

/-- CMEQN (R88) is `FCmpS` (R92) with the relation `FP.meq_s`. -/
def Obligations.CmeqnResult : Prop :=
  ∀ (s : State) (i : BitVec 5) (j k : Nat) (v w : ArithWord), s.a[j]? = some v → s.a[k]? = some w →
    ∃ t, exec (.cmeqn i j k) s = .next t ∧ SingleFloatEffect Config.fp Config.fp.meqS i v w s t

/-- CGED (R85): `j` and `k` even, it is `FCmpD` (R93) with the relation `FP.ge_d`; an odd `j` or `k` raises `RS`
and faults (R67; the spec's own decision D4). -/
def Obligations.CgedResult : Prop :=
  (∀ (s : State) (i : BitVec 5) (j k : Nat) (p q : ArithPair), j % 2 = 0 → k % 2 = 0 →
    s.a[j]? = some p.1 → s.a[j + 1]? = some p.2 → s.a[k]? = some q.1 → s.a[k + 1]? = some q.2 →
    ∃ t, exec (.cged i j k) s = .next t ∧ DoubleFloatEffect Config.fp Config.fp.geD i p q s t) ∧
  (∀ (s : State) (i : BitVec 5) (j k : Nat), j % 2 = 1 ∨ k % 2 = 1 →
    exec (.cged i j k) s = .next (OddRegisterState s))

/-- CEQD (R86): `j` and `k` even, it is `FCmpD` (R93) with the relation `FP.eq_d`; an odd `j` or `k` raises `RS`
and faults (R67; the spec's own decision D4). -/
def Obligations.CeqdResult : Prop :=
  (∀ (s : State) (i : BitVec 5) (j k : Nat) (p q : ArithPair), j % 2 = 0 → k % 2 = 0 →
    s.a[j]? = some p.1 → s.a[j + 1]? = some p.2 → s.a[k]? = some q.1 → s.a[k + 1]? = some q.2 →
    ∃ t, exec (.ceqd i j k) s = .next t ∧ DoubleFloatEffect Config.fp Config.fp.eqD i p q s t) ∧
  (∀ (s : State) (i : BitVec 5) (j k : Nat), j % 2 = 1 ∨ k % 2 = 1 →
    exec (.ceqd i j k) s = .next (OddRegisterState s))

/-- CMGED (R89): `j` and `k` even, it is `FCmpD` (R93) with the relation `FP.mge_d`; an odd `j` or `k` raises `RS`
and faults (R67; the spec's own decision D4). -/
def Obligations.CmgedResult : Prop :=
  (∀ (s : State) (i : BitVec 5) (j k : Nat) (p q : ArithPair), j % 2 = 0 → k % 2 = 0 →
    s.a[j]? = some p.1 → s.a[j + 1]? = some p.2 → s.a[k]? = some q.1 → s.a[k + 1]? = some q.2 →
    ∃ t, exec (.cmged i j k) s = .next t ∧ DoubleFloatEffect Config.fp Config.fp.mgeD i p q s t) ∧
  (∀ (s : State) (i : BitVec 5) (j k : Nat), j % 2 = 1 ∨ k % 2 = 1 →
    exec (.cmged i j k) s = .next (OddRegisterState s))

/-- CMEQD (R90): `j` and `k` even, it is `FCmpD` (R93) with the relation `FP.meq_d`; an odd `j` or `k` raises `RS`
and faults (R67; the spec's own decision D4). -/
def Obligations.CmeqdResult : Prop :=
  (∀ (s : State) (i : BitVec 5) (j k : Nat) (p q : ArithPair), j % 2 = 0 → k % 2 = 0 →
    s.a[j]? = some p.1 → s.a[j + 1]? = some p.2 → s.a[k]? = some q.1 → s.a[k + 1]? = some q.2 →
    ∃ t, exec (.cmeqd i j k) s = .next t ∧ DoubleFloatEffect Config.fp Config.fp.meqD i p q s t) ∧
  (∀ (s : State) (i : BitVec 5) (j k : Nat), j % 2 = 1 ∨ k % 2 = 1 →
    exec (.cmeqd i j k) s = .next (OddRegisterState s))

/-- With an operand `u` and the other operand `u` or normalized, the result of every compare is 0, the
equalities included, and `UO` is raised exactly when an operand is unnormalized (R82). Stated of the two
shared procedures for every record `FP` and every relation. -/
def Obligations.OperandUGivesFalse : Prop :=
  (∀ (fp : FP) (rel : ArithWord → ArithWord → Bool) (s : State) (i : BitVec 5) (j k : Nat) (v w : ArithWord),
    s.a[j]? = some v → s.a[k]? = some w → IsUSingle v ∨ IsUSingle w →
    (fp.unnormS v = true → IsUSingle v) → (fp.unnormS w = true → IsUSingle w) →
    ∃ t, fcmpS fp rel i j k s = .next t ∧ t.draws = s.draws ∧
      SingleBitEffect i false (fp.unnormS v || fp.unnormS w) s t) ∧
  (∀ (fp : FP) (rel : ArithPair → ArithPair → Bool) (s : State) (i : BitVec 5) (j k : Nat) (p q : ArithPair),
    j % 2 = 0 → k % 2 = 0 →
    s.a[j]? = some p.1 → s.a[j + 1]? = some p.2 → s.a[k]? = some q.1 → s.a[k + 1]? = some q.2 →
    IsUDouble fp p ∨ IsUDouble fp q →
    (fp.unnormD p = true → IsUDouble fp p) → (fp.unnormD q = true → IsUDouble fp q) →
    ∃ t, fcmpD fp rel i j k s = .next t ∧ t.draws = s.draws ∧
      SingleBitEffect i false (fp.unnormD p || fp.unnormD q) s t)

/-- With an unnormalized operand that is not `u` the result is a draw and `UO` is raised, also where the
other operand is `u`; with `i = 24` under the policy `fault` the one step records `UO`, and `CC` with it
exactly when the draw is 0 (R66, R92, R93, R134; D11, D20). Stated for every record `FP` and every
relation; nothing is said of which bit is drawn. -/
def Obligations.UnnormalizedOperandDraws : Prop :=
  (∀ (fp : FP) (rel : ArithWord → ArithWord → Bool) (s : State) (i : BitVec 5) (j k : Nat) (v w : ArithWord),
    s.a[j]? = some v → s.a[k]? = some w →
    (fp.unnormS v = true ∧ ¬ IsUSingle v) ∨ (fp.unnormS w = true ∧ ¬ IsUSingle w) →
    ∃ t, fcmpS fp rel i j k s = .next t ∧ t.draws = s.draws + 1 ∧ t.exc.uo = true ∧
      SingleBitEffect i (Config.draw s.draws) true s t ∧
      (i = 24#5 → s.policy = .fault →
        t.fault = some { raised := { uo := true, cc := !Config.draw s.draws, rs := false }, pc := s.pc })) ∧
  (∀ (fp : FP) (rel : ArithPair → ArithPair → Bool) (s : State) (i : BitVec 5) (j k : Nat) (p q : ArithPair),
    j % 2 = 0 → k % 2 = 0 →
    s.a[j]? = some p.1 → s.a[j + 1]? = some p.2 → s.a[k]? = some q.1 → s.a[k + 1]? = some q.2 →
    (fp.unnormD p = true ∧ ¬ IsUDouble fp p) ∨ (fp.unnormD q = true ∧ ¬ IsUDouble fp q) →
    ∃ t, fcmpD fp rel i j k s = .next t ∧ t.draws = s.draws + 1 ∧ t.exc.uo = true ∧
      SingleBitEffect i (Config.draw s.draws) true s t ∧
      (i = 24#5 → s.policy = .fault →
        t.fault = some { raised := { uo := true, cc := !Config.draw s.draws, rs := false }, pc := s.pc }))

/-- A normalized operand that is not `u`, compared with itself, gives 1 by each of the four relations, for
every record `FP` with the laws of R91. -/
def Obligations.NormalOperandEqualsItself : Prop :=
  ∀ fp : FP, fp.Lawful →
    (∀ rel ∈ [fp.geS, fp.eqS, fp.mgeS, fp.meqS], ∀ (s : State) (i : BitVec 5) (j : Nat) (v : ArithWord),
      s.a[j]? = some v → NormalSingle fp v →
      ∃ t, fcmpS fp rel i j j s = .next t ∧ t.draws = s.draws ∧ SingleBitEffect i true false s t) ∧
    (∀ rel ∈ [fp.geD, fp.eqD, fp.mgeD, fp.meqD], ∀ (s : State) (i : BitVec 5) (j : Nat) (p : ArithPair),
      j % 2 = 0 → s.a[j]? = some p.1 → s.a[j + 1]? = some p.2 → NormalDouble fp p →
      ∃ t, fcmpD fp rel i j j s = .next t ∧ t.draws = s.draws ∧ SingleBitEffect i true false s t)

/-- The ordered-or-not test (95_test_vectors.md P5): for every record `FP` with the laws of R91, if `ge`
both ways leaves 0 in both condition bits then an operand is `u` or unnormalized. -/
def Obligations.BothOrdersFalseShowsSpecialOperand : Prop :=
  ∀ fp : FP, fp.Lawful →
    ∀ rel ∈ [fp.geS, fp.mgeS], ∀ (s t t' : State) (i i' : BitVec 5) (j k : Nat) (v w : ArithWord),
      s.a[j]? = some v → s.a[k]? = some w → i.toNat < 24 → i'.toNat < 24 →
      fcmpS fp rel i j k s = .next t → fcmpS fp rel i' k j s = .next t' →
      t.c[i.toNat]? = some false → t'.c[i'.toNat]? = some false →
      fp.unnormS v = true ∨ IsUSingle v ∨ fp.unnormS w = true ∨ IsUSingle w

/-! ## Integer compares (42_compare_integer.md) -/

/-- CGEI (R100): signed two's-complement `A[j] >= A[k]` (D2, log 9). -/
def Obligations.CgeiResult : Prop :=
  ∀ (s : State) (i : BitVec 5) (j k : Nat) (v w : ArithWord), s.a[j]? = some v → s.a[k]? = some w →
    ∃ t, exec (.cgei i j k) s = .next t ∧ t.draws = s.draws ∧
      SingleBitEffect i (decide (v.toInt ≥ w.toInt)) false s t

/-- CEQI (R101): all 48 bits identical, which is equality of integers in two's complement (D2, log 9). -/
def Obligations.CeqiResult : Prop :=
  ∀ (s : State) (i : BitVec 5) (j k : Nat) (v w : ArithWord), s.a[j]? = some v → s.a[k]? = some w →
    ∃ t, exec (.ceqi i j k) s = .next t ∧ t.draws = s.draws ∧ SingleBitEffect i (decide (v = w)) false s t

/-- CUGEI (R102): unsigned `A[j] >= A[k]`. -/
def Obligations.CugeiResult : Prop :=
  ∀ (s : State) (i : BitVec 5) (j k : Nat) (v w : ArithWord), s.a[j]? = some v → s.a[k]? = some w →
    ∃ t, exec (.cugei i j k) s = .next t ∧ t.draws = s.draws ∧
      SingleBitEffect i (decide (v.toNat ≥ w.toNat)) false s t

/-! ## Index compares (43_compare_index.md) -/

/-- CGEX (R110): signed two's-complement `X[j] >= X[k]` (D2, log 9). -/
def Obligations.CgexResult : Prop :=
  ∀ (s : State) (i : BitVec 5) (j k : Nat) (v w : IndexWord), s.x[j]? = some v → s.x[k]? = some w →
    ∃ t, exec (.cgex i j k) s = .next t ∧ t.draws = s.draws ∧
      SingleBitEffect i (decide (v.toInt ≥ w.toInt)) false s t

/-- CEQX (R111): all 24 bits identical (D2, log 9). -/
def Obligations.CeqxResult : Prop :=
  ∀ (s : State) (i : BitVec 5) (j k : Nat) (v w : IndexWord), s.x[j]? = some v → s.x[k]? = some w →
    ∃ t, exec (.ceqx i j k) s = .next t ∧ t.draws = s.draws ∧ SingleBitEffect i (decide (v = w)) false s t

/-- CUGEX (R112): unsigned `X[j] >= X[k]`. -/
def Obligations.CugexResult : Prop :=
  ∀ (s : State) (i : BitVec 5) (j k : Nat) (v w : IndexWord), s.x[j]? = some v → s.x[k]? = some w →
    ∃ t, exec (.cugex i j k) s = .next t ∧ t.draws = s.draws ∧
      SingleBitEffect i (decide (v.toNat ≥ w.toNat)) false s t

/-- CGEXK (R113): signed two's-complement `X[j] >= h` (D2, log 9). -/
def Obligations.CgexkResult : Prop :=
  ∀ (s : State) (i : BitVec 5) (j : Nat) (v : IndexWord) (h : Literal), s.x[j]? = some v →
    ∃ t, exec (.cgexk i j h) s = .next t ∧ t.draws = s.draws ∧
      SingleBitEffect i (decide (v.toInt ≥ h.toInt)) false s t

/-- CEQXK (R114): all 24 bits of `X[j]` and `h` identical (D2, log 9). -/
def Obligations.CeqxkResult : Prop :=
  ∀ (s : State) (i : BitVec 5) (j : Nat) (v : IndexWord) (h : Literal), s.x[j]? = some v →
    ∃ t, exec (.ceqxk i j h) s = .next t ∧ t.draws = s.draws ∧ SingleBitEffect i (decide (v = h)) false s t

/-- CUGEXK (R115): unsigned `X[j] >= h`. -/
def Obligations.CugexkResult : Prop :=
  ∀ (s : State) (i : BitVec 5) (j : Nat) (v : IndexWord) (h : Literal), s.x[j]? = some v →
    ∃ t, exec (.cugexk i j h) s = .next t ∧ t.draws = s.draws ∧
      SingleBitEffect i (decide (v.toNat ≥ h.toNat)) false s t

/-! ## Byte compares (44_compare_bytes.md): operand byte `m` of a register of `8 * count` bits is its bits
`8 * count - 8 * m` and the seven above (rule R119) -/

/-- CBA (R120): the test byte is identical to one or more of the six operand bytes. -/
def Obligations.CbaResult : Prop :=
  ∀ (s : State) (i : BitVec 5) (j k : Nat) (v w : ArithWord), s.a[j]? = some v → s.a[k]? = some w →
    ∃ (t : State) (r : Bool), exec (.cba i j k) s = .next t ∧ t.draws = s.draws ∧ SingleBitEffect i r false s t ∧
      (r = true ↔ ∃ m, 1 ≤ m ∧ m ≤ 6 ∧ v.toNat % 256 = w.toNat / 2 ^ (48 - 8 * m) % 256)

/-- CBMA (R121): seven bits from the segment's base `i - (i mod 8)`, lane `m` being the `m`-th byte from the left (D1, log 8). -/
def Obligations.CbmaResult : Prop :=
  ∀ (s : State) (i : BitVec 5) (j k : Nat) (v w : ArithWord), s.a[j]? = some v → s.a[k]? = some w →
    ∃ t, exec (.cbma i j k) s = .next t ∧
      MultipleEffect (i.toNat - i.toNat % 8) 6
        (fun m => decide (v.toNat % 256 = w.toNat / 2 ^ (48 - 8 * m) % 256)) s t

/-- CBX (R122): the test byte is identical to one or more of the three operand bytes. -/
def Obligations.CbxResult : Prop :=
  ∀ (s : State) (i : BitVec 5) (j k : Nat) (v w : IndexWord), s.x[j]? = some v → s.x[k]? = some w →
    ∃ (t : State) (r : Bool), exec (.cbx i j k) s = .next t ∧ t.draws = s.draws ∧ SingleBitEffect i r false s t ∧
      (r = true ↔ ∃ m, 1 ≤ m ∧ m ≤ 3 ∧ v.toNat % 256 = w.toNat / 2 ^ (24 - 8 * m) % 256)

/-- CBMX (R123): four bits from the segment's base `i - (i mod 4)`, lane `m` being the `m`-th byte from the left (D1, log 8). -/
def Obligations.CbmxResult : Prop :=
  ∀ (s : State) (i : BitVec 5) (j k : Nat) (v w : IndexWord), s.x[j]? = some v → s.x[k]? = some w →
    ∃ t, exec (.cbmx i j k) s = .next t ∧
      MultipleEffect (i.toNat - i.toNat % 4) 3
        (fun m => decide (v.toNat % 256 = w.toNat / 2 ^ (24 - 8 * m) % 256)) s t

/-! ## Consequences across instructions -/

/-- The low three bits of `i` in CBMA and the low two in CBMX are ignored (R45). -/
def Obligations.IgnoredBitsOfSegmentField : Prop :=
  ∀ (s : State) (i i' : BitVec 5) (j k : Nat),
    (i.toNat / 8 = i'.toNat / 8 → exec (.cbma i j k) s = exec (.cbma i' j k) s) ∧
    (i.toNat / 4 = i'.toNat / 4 → exec (.cbmx i j k) s = exec (.cbmx i' j k) s)

/-- A register compared with itself by any of the eight integer, index and byte compares that write one
bit gives 1 (R100 to R102, R110 to R112, R120, R122, corner cases), so bit number 25 always raises `CC`
and bit number 24 never does (R62). -/
def Obligations.RegisterComparedWithItself : Prop :=
  ∀ (s : State) (i : BitVec 5) (j : Nat),
    (j < s.a.length → ∀ ins ∈ [Instr.cgei i j j, .ceqi i j j, .cugei i j j, .cba i j j],
      ∃ t, exec ins s = .next t ∧ t.draws = s.draws ∧ SingleBitEffect i true false s t) ∧
    (j < s.x.length → ∀ ins ∈ [Instr.cgex i j j, .ceqx i j j, .cugex i j j, .cbx i j j],
      ∃ t, exec ins s = .next t ∧ t.draws = s.draws ∧ SingleBitEffect i true false s t)

/-- The table of six relations (R65), on signed integers in `A` registers and on signed and unsigned index
integers in `X` registers (signed by D2, log 9): each relation holds exactly when the bit written by the
compare the table names has the value it names. -/
def Obligations.SixRelations : Prop :=
  (∀ (s : State) (i : BitVec 5) (j k : Nat) (a b : ArithWord), i.toNat < 24 →
    s.a[j]? = some a → s.a[k]? = some b →
    ∃ ge le eq : State, exec (.cgei i j k) s = .next ge ∧ exec (.cgei i k j) s = .next le ∧
      exec (.ceqi i j k) s = .next eq ∧
      (a.toInt > b.toInt ↔ le.c[i.toNat]? = some false) ∧
      (a.toInt ≥ b.toInt ↔ ge.c[i.toNat]? = some true) ∧
      (a.toInt = b.toInt ↔ eq.c[i.toNat]? = some true) ∧
      (a.toInt ≠ b.toInt ↔ eq.c[i.toNat]? = some false) ∧
      (a.toInt ≤ b.toInt ↔ le.c[i.toNat]? = some true) ∧
      (a.toInt < b.toInt ↔ ge.c[i.toNat]? = some false)) ∧
  (∀ (s : State) (i : BitVec 5) (j k : Nat) (a b : IndexWord), i.toNat < 24 →
    s.x[j]? = some a → s.x[k]? = some b →
    ∃ ge le uge ule eq : State, exec (.cgex i j k) s = .next ge ∧ exec (.cgex i k j) s = .next le ∧
      exec (.cugex i j k) s = .next uge ∧ exec (.cugex i k j) s = .next ule ∧ exec (.ceqx i j k) s = .next eq ∧
      (a.toInt > b.toInt ↔ le.c[i.toNat]? = some false) ∧
      (a.toInt ≥ b.toInt ↔ ge.c[i.toNat]? = some true) ∧
      (a.toInt = b.toInt ↔ eq.c[i.toNat]? = some true) ∧
      (a.toInt ≠ b.toInt ↔ eq.c[i.toNat]? = some false) ∧
      (a.toInt ≤ b.toInt ↔ le.c[i.toNat]? = some true) ∧
      (a.toInt < b.toInt ↔ ge.c[i.toNat]? = some false) ∧
      (a.toNat > b.toNat ↔ ule.c[i.toNat]? = some false) ∧
      (a.toNat ≥ b.toNat ↔ uge.c[i.toNat]? = some true) ∧
      (a.toNat = b.toNat ↔ eq.c[i.toNat]? = some true) ∧
      (a.toNat ≠ b.toNat ↔ eq.c[i.toNat]? = some false) ∧
      (a.toNat ≤ b.toNat ↔ ule.c[i.toNat]? = some true) ∧
      (a.toNat < b.toNat ↔ uge.c[i.toNat]? = some false))

/-- CUGEI and CGEI differ exactly when the leftmost bits of the two operands differ (R102). -/
def Obligations.UnsignedDiffersOnLeftmostBits : Prop :=
  ∀ (s : State) (i : BitVec 5) (j k : Nat) (a b : ArithWord), i.toNat < 24 →
    s.a[j]? = some a → s.a[k]? = some b →
    ∃ t t' : State, exec (.cgei i j k) s = .next t ∧ exec (.cugei i j k) s = .next t' ∧
      (t.c[i.toNat]? ≠ t'.c[i.toNat]? ↔ a.getLsbD 47 ≠ b.getLsbD 47)

/-- The one-instruction range check (R115): for a literal `n` in `1 .. 0x800000`, CUGEXK gives 0 exactly
when `0 <= sint_24(X[j]) < n`. -/
def Obligations.RangeCheckByUnsignedConstant : Prop :=
  ∀ (s : State) (i : BitVec 5) (j : Nat) (v : IndexWord) (n : Literal), i.toNat < 24 → s.x[j]? = some v →
    1 ≤ n.toNat → n.toNat ≤ 0x800000 →
    ∃ t, exec (.cugexk i j n) s = .next t ∧
      (t.c[i.toNat]? = some false ↔ 0 ≤ v.toInt ∧ v.toInt < (n.toNat : Int))

/-- The byte compares do not read the bits of register `j` above its low order 8 (R119): putting another
word with the same low order byte into it changes nothing else of the result. -/
def Obligations.TestRegisterHighBitsNotRead : Prop :=
  (∀ (s t : State) (i : BitVec 5) (j k : Nat) (v v' : ArithWord), j ≠ k → s.a[j]? = some v →
    v.toNat % 256 = v'.toNat % 256 →
    (exec (.cba i j k) s = .next t → exec (.cba i j k) { s with a := s.a.set j v' } = .next { t with a := s.a.set j v' }) ∧
    (exec (.cbma i j k) s = .next t → exec (.cbma i j k) { s with a := s.a.set j v' } = .next { t with a := s.a.set j v' })) ∧
  (∀ (s t : State) (i : BitVec 5) (j k : Nat) (v v' : IndexWord), j ≠ k → s.x[j]? = some v →
    v.toNat % 256 = v'.toNat % 256 →
    (exec (.cbx i j k) s = .next t → exec (.cbx i j k) { s with x := s.x.set j v' } = .next { t with x := s.x.set j v' }) ∧
    (exec (.cbmx i j k) s = .next t → exec (.cbmx i j k) { s with x := s.x.set j v' } = .next { t with x := s.x.set j v' }))

/-- An integer, index or byte compare whose designated bit numbers are all 26 or more has no effect but to
advance `pc` (R50, R61). -/
def Obligations.LostResultHasNoEffect : Prop :=
  ∀ (i : Instr) (s : State), ¬ i.isFloat → i.operandsExist s → (∀ n, i.designates n → 26 ≤ n) →
    exec i s = .next { s with pc := s.pc + 1 }

/-! ## Whole-machine rules, over all 21 instructions -/

/-- Every instruction whose registers exist answers a next state, in every state (R153: "every instruction
term has a rule"). -/
def Obligations.EveryInstructionCompletes : Prop :=
  ∀ (i : Instr) (s : State), i.operandsExist s → ∃ t, exec i s = .next t

/-- An instruction that reads a register that does not exist is refused, and the refusal names such a
register of the file it reads (R44, D24); exec never faults. -/
def Obligations.MissingRegisterIsRefused : Prop :=
  ∀ (i : Instr) (s : State), ¬ i.operandsExist s →
    (∃ n ∈ i.readsA, s.a.length ≤ n ∧ exec i s = .refused (.noArithRegister n)) ∨
    (∃ n ∈ i.readsX, s.x.length ≤ n ∧ exec i s = .refused (.noIndexRegister n))

/-- The frame of every instruction (R17, R59, R68, R132, R133). Unless it is a double precision compare with an odd
register number, it changes no condition bit that its `i` field does not designate, raises `RS` never,
`UO` only if it is a floating-point compare and `CC` only if it designates bit 24 or 25, makes at most one
draw and that only if it is a floating-point compare, and ends as `Retires` says: no register, program or
parameter changes. -/
def Obligations.InstructionFrame : Prop :=
  ∀ (i : Instr) (s t : State), exec i s = .next t → ¬ i.oddDouble →
    (∀ n, n < 24 → ¬ i.designates n → t.c[n]? = s.c[n]?) ∧
    (t.draws = s.draws ∨ i.isFloat ∧ t.draws = s.draws + 1) ∧
    ∃ raised : ExcBits, raised.rs = false ∧ (raised.uo = true → i.isFloat) ∧
      (raised.cc = true → i.designates 24 ∨ i.designates 25) ∧ Retires raised s t

/-- An instruction changes no `A` register and no `X` register, and its whole effect is on condition bits and
exception bits (R59; the machine has no memory). Of `pc`, the fault record and the draw count, which follow
rules of their own, nothing is said. -/
def Obligations.WholeEffectOfACompare : Prop :=
  ∀ (i : Instr) (s t : State), exec i s = .next t →
    (t.a = s.a ∧ t.x = s.x) ∧
    t = { s with c := t.c, exc := t.exc, pc := t.pc, fault := t.fault, draws := t.draws }

/-- No step changes a register, the program list, the register counts or `EXC_POLICY`, or clears an
exception bit (R10, R13, R21, R36, R59). -/
def Obligations.StepLeavesRegistersAndProgram : Prop :=
  ∀ s t : State, step s = .next t →
    t.a = s.a ∧ t.x = s.x ∧ t.prog = s.prog ∧ t.policy = s.policy ∧ s.exc.within t.exc

/-- Where each exception bit comes from (R132): a step that changes a bit ran a double precision compare
with an odd register number (`RS`), any other floating-point compare (`UO`), or an instruction that
designates bit 24 or 25 and is no double precision compare with an odd register number (`CC`). -/
def Obligations.SourcesOfExceptionBits : Prop :=
  ∀ s t : State, step s = .next t → ∃ i, s.prog[s.pc]? = some i ∧
    (t.exc.rs = s.exc.rs ∨ i.oddDouble) ∧
    (t.exc.uo = s.exc.uo ∨ i.isFloat ∧ ¬ i.oddDouble) ∧
    (t.exc.cc = s.exc.cc ∨ (i.designates 24 ∨ i.designates 25) ∧ ¬ i.oddDouble)

/-- Every step keeps the invariant, at any `W_R`, from every state that meets it, not only from those a run
reaches. -/
def Obligations.StepKeepsInv : Prop := ∀ (wR : Nat) (s t : State), s.Inv wR → step s = .next t → t.Inv wR

/-- There are no stuck states (R153): with `2^W_R` registers in each file, every state that meets the
invariant with `pc` inside the program list and no fault recorded has a step (R44: no register number can
then fail to name a register). -/
def Obligations.NoStuckState : Prop :=
  ∀ (wR : Nat) (s : State), s.Inv wR → s.a.length = 2 ^ wR → s.x.length = 2 ^ wR → s.fault = none →
    s.pc < s.prog.length → ∃ t, step s = .next t

/-- There are no infinite runs (R153): from every state that meets the invariant, with `2^W_R` registers in
each file and no fault recorded, within as many steps as instructions are left, the run is over or faulted,
and it stays within the invariant. -/
def Obligations.RunEndsOrFaults : Prop :=
  ∀ (wR : Nat) (s : State), s.Inv wR → s.a.length = 2 ^ wR → s.x.length = 2 ^ wR → s.fault = none →
    ∃ n ≤ s.prog.length - s.pc, ∃ t : State, Host.Core.run Sys2Proof.core n s = .next t ∧ t.Inv wR ∧
      (t.isFinal ∨ t.isFaulted)

/-- No instruction reads a condition bit or an exception bit (R18, R23): two states that differ in those
alone take the same step, write the same designated condition bits, keep their own others, and set the
same exceptions on top of their own. -/
def Obligations.ConditionAndExceptionBitsNotRead : Prop :=
  ∀ (i : Instr) (s t : State) (c' : Vector Bool 24) (e' : ExcBits), exec i s = .next t →
    ∃ t' : State, exec i { s with c := c', exc := e' } = .next t' ∧
      t' = { t with c := t'.c, exc := t'.exc } ∧
      (∀ n, n < 24 → i.designates n → ¬ i.oddDouble → t.c[n]? = t'.c[n]?) ∧
      (∀ n, n < 24 → ¬ i.designates n ∨ i.oddDouble → t.c[n]? = s.c[n]? ∧ t'.c[n]? = c'[n]?) ∧
      ∃ raised : ExcBits,
        t.exc = { uo := s.exc.uo || raised.uo, cc := s.exc.cc || raised.cc, rs := s.exc.rs || raised.rs } ∧
        t'.exc = { uo := e'.uo || raised.uo, cc := e'.cc || raised.cc, rs := e'.rs || raised.rs }

/-- An instruction reads no register but those of the access table (R23): in register files that agree on
those it does exactly the same to the rest of the state. -/
def Obligations.OnlyListedRegistersRead : Prop :=
  ∀ (i : Instr) (s t : State) (a' : List ArithWord) (x' : List IndexWord),
    (∀ n ∈ i.readsA, a'[n]? = s.a[n]?) → (∀ n ∈ i.readsX, x'[n]? = s.x[n]?) → exec i s = .next t →
    exec i { s with a := a', x := x' } = .next { t with a := a', x := x' }
end

