-- ==== Sys2Proof/Laws/Decode.lean ====
section
/-! SUPPORT. Bits as numbers, and the layout of a word: where each field of an encoded word is read back
(30_encoding.md rules R41, R42, R48). -/

namespace Sys2Proof

@[simp] theorem bitsOf_length (n v : Nat) : (bitsOf n v).length = n := by
  induction n with
  | zero => rfl
  | succ n ih => simp [bitsOf, ih]

theorem numberOf_lt (bits : List Bool) : numberOf bits < 2 ^ bits.length := by
  induction bits with
  | nil => simp [numberOf]
  | cons b bits ih =>
    simp only [numberOf, List.length_cons, Nat.pow_succ]
    have : b.toNat * 2 ^ bits.length ≤ 1 * 2 ^ bits.length := Nat.mul_le_mul_right _ (Bool.toNat_le b)
    omega

/-- The number that the lowest bits of a number spell. -/
theorem numberOf_bitsOf (n v : Nat) : numberOf (bitsOf n v) = v % 2 ^ n := by
  induction n with
  | zero => simp [bitsOf, numberOf, Nat.mod_one]
  | succ n ih =>
    simp only [bitsOf, numberOf, bitsOf_length, ih, Nat.testBit_eq_decide_div_mod_eq]
    rw [Nat.pow_succ, Nat.mod_mul]
    rcases Nat.mod_two_eq_zero_or_one (v / 2 ^ n) with h | h
    · simp [h]
    · simp [h]; omega

theorem numberOf_bitsOf_of_lt {n v : Nat} (h : v < 2 ^ n) : numberOf (bitsOf n v) = v := by
  rw [numberOf_bitsOf, Nat.mod_eq_of_lt h]

/-- Bits that are all 0 are the bits of 0. -/
theorem eq_bitsOf_zero {bits : List Bool} (h : bits.any id = false) : bits = bitsOf bits.length 0 := by
  induction bits with
  | nil => rfl
  | cons b bits ih =>
    simp only [List.any_cons, Bool.or_eq_false_iff, id] at h
    simp only [List.length_cons, bitsOf, Nat.zero_testBit, h.1]
    rw [← ih h.2]

@[simp] theorem bitsOf_zero_any (n : Nat) : (bitsOf n 0).any id = false := by
  induction n with
  | zero => rfl
  | succ n ih => simp [bitsOf, ih]

/-- The bits of the number that bits spell are those bits. -/
theorem bitsOf_numberOf (bits : List Bool) : bitsOf bits.length (numberOf bits) = bits := by
  suffices ∀ v, bitsOf bits.length (v * 2 ^ bits.length + numberOf bits) = bits by simpa using this 0
  induction bits with
  | nil => intro v; rfl
  | cons b bits ih =>
    intro v
    have hlt := numberOf_lt bits
    simp only [List.length_cons, bitsOf, numberOf, Nat.pow_succ, List.cons.injEq]
    have e : v * (2 ^ bits.length * 2) + (b.toNat * 2 ^ bits.length + numberOf bits)
        = (v * 2 + b.toNat) * 2 ^ bits.length + numberOf bits := by ring
    rw [e]
    refine ⟨?_, ih _⟩
    rw [Nat.testBit_eq_decide_div_mod_eq, Nat.mul_comm, Nat.mul_add_div (Nat.two_pow_pos _), Nat.div_eq_of_lt hlt]
    cases b <;> simp

/-- Bits one after another are the number with the left part in the higher-weight bits (R5, `++`). -/
theorem numberOf_append (a b : List Bool) : numberOf (a ++ b) = numberOf a * 2 ^ b.length + numberOf b := by
  induction a with
  | nil => simp [numberOf]
  | cons x a ih => simp only [List.cons_append, numberOf, ih, List.length_append, Nat.pow_add]; ring

/-- A slice that begins after a known prefix. -/
theorem slice_append {p a r : List Bool} {start width : Nat} (hs : start = p.length) (hw : width = a.length) :
    slice start width (p ++ (a ++ r)) = a := by
  subst hs hw; simp [slice]

/-- Every mnemonic is in the list of all of them. -/
theorem Mnemonic.mem_all (m : Mnemonic) : m ∈ Mnemonic.all := by cases m <;> decide

/-- The `op` value of an instruction names it (R48: `OPMAP` is injective). -/
theorem Encoding.mnemonicOf_opMap {e : Encoding} (h : e.Valid) (m : Mnemonic) :
    e.mnemonicOf (e.opMap m) = some m := by
  unfold Encoding.mnemonicOf
  cases hf : Mnemonic.all.find? (fun m' => e.opMap m' == e.opMap m) with
  | none => exact absurd (by simp) (List.find?_eq_none.1 hf m m.mem_all)
  | some m' =>
    have := List.find?_some hf
    rw [h.opInjective m' m (by simpa using this)]

/-- An `op` value names only an instruction that has it. -/
theorem Encoding.opMap_of_mnemonicOf {e : Encoding} {op : Nat} {m : Mnemonic} (h : e.mnemonicOf op = some m) :
    e.opMap m = op := by
  have := List.find?_some h
  simpa using this

/-- A word has the length of its format (R41, R42). -/
theorem Encoding.word_length {e : Encoding} (h : e.Valid) (m : Mnemonic) (i : BitVec 5) (j last : Nat) :
    (e.word m i j last).length = (e.format m).len := by
  have := h.fieldsFit m
  simp only [Encoding.endAt, Encoding.lastAt, Encoding.jAt, Encoding.iAt] at this
  simp only [Encoding.word, List.length_append, bitsOf_length, Encoding.endAt, Encoding.lastAt, Encoding.jAt,
    Encoding.iAt]
  omega

/-- What eight runs of bits, one after another, hold where each begins. -/
theorem slice_of_eight (p a b c d f g h : List Bool) :
    let word := p ++ (a ++ (b ++ (c ++ (d ++ (f ++ (g ++ h))))))
    slice p.length a.length word = a ∧ slice (p.length + a.length) b.length word = b ∧
    slice (p.length + a.length + b.length) c.length word = c ∧
    slice (p.length + a.length + b.length + c.length) d.length word = d ∧
    slice (p.length + a.length + b.length + c.length + d.length) f.length word = f ∧
    slice (p.length + a.length + b.length + c.length + d.length + f.length) g.length word = g ∧
    slice (p.length + a.length + b.length + c.length + d.length + f.length + g.length) h.length word = h := by
  refine ⟨slice_append rfl rfl, ?_, ?_, ?_, ?_, ?_, ?_⟩
  · simpa using slice_append (p := p ++ a) (a := b) (r := c ++ (d ++ (f ++ (g ++ h)))) rfl rfl
  · simpa [Nat.add_assoc] using slice_append (p := p ++ a ++ b) (a := c) (r := d ++ (f ++ (g ++ h))) rfl rfl
  · simpa [Nat.add_assoc] using slice_append (p := p ++ a ++ b ++ c) (a := d) (r := f ++ (g ++ h)) rfl rfl
  · simpa [Nat.add_assoc] using slice_append (p := p ++ a ++ b ++ c ++ d) (a := f) (r := g ++ h) rfl rfl
  · simpa [Nat.add_assoc] using slice_append (p := p ++ a ++ b ++ c ++ d ++ f) (a := g) (r := h) rfl rfl
  · simpa [Nat.add_assoc] using slice_append (p := p ++ a ++ b ++ c ++ d ++ f ++ g) (a := h) (r := []) rfl rfl

/-- Where the fields of a word are read back, and that its unused bits are 0 (R41, R42). -/
theorem Encoding.word_fields (e : Encoding) (m : Mnemonic) (i : BitVec 5) (j last : Nat) :
    slice (e.iAt m) 5 (e.word m i j last) = bitsOf 5 i.toNat ∧
    slice (e.jAt m) e.wR (e.word m i j last) = bitsOf e.wR j ∧
    slice (e.lastAt m) (e.lastWidth m) (e.word m i j last) = bitsOf (e.lastWidth m) last ∧
    (e.unusedBits m (e.word m i j last)).any id = false := by
  have h := slice_of_eight (bitsOf e.wOp (e.opMap m)) (bitsOf (e.format m).afterOp 0) (bitsOf 5 i.toNat)
    (bitsOf (e.format m).afterI 0) (bitsOf e.wR j) (bitsOf (e.format m).afterJ 0) (bitsOf (e.lastWidth m) last)
    (bitsOf ((e.format m).len - e.endAt m) 0)
  simp only [bitsOf_length] at h
  obtain ⟨h1, hi, h2, hj, h3, hl, h4⟩ := h
  refine ⟨hi, hj, hl, ?_⟩
  have g1 : slice e.wOp (e.format m).afterOp (e.word m i j last) = _ := h1
  have g2 : slice (e.iAt m + 5) (e.format m).afterI (e.word m i j last) = _ := h2
  have g3 : slice (e.jAt m + e.wR) (e.format m).afterJ (e.word m i j last) = _ := h3
  have g4 : slice (e.endAt m) ((e.format m).len - e.endAt m) (e.word m i j last) = _ := h4
  simp only [Encoding.unusedBits, g1, g2, g3, g4, List.any_append, bitsOf_zero_any, Bool.or_false]

/-- The encoding of an instruction is the word of its mnemonic and its fields, whose numbers fit where the
instruction is well formed, and from which it is put together again (R48). -/
theorem encode_eq_word (e : Encoding) (ins : Instr) :
    ∃ i j last, encode e ins = e.word ins.mnemonic i j last ∧ ins.mnemonic.instr i j last = ins ∧
      (ins.wellFormed e.wR = true → j < 2 ^ e.wR ∧ last < 2 ^ e.lastWidth ins.mnemonic) := by
  cases ins with
  | cgexk i j h => exact ⟨i, j, h.toNat, rfl, by simp [Instr.mnemonic, Mnemonic.instr], fun hw => ⟨of_decide_eq_true hw, h.isLt⟩⟩
  | ceqxk i j h => exact ⟨i, j, h.toNat, rfl, by simp [Instr.mnemonic, Mnemonic.instr], fun hw => ⟨of_decide_eq_true hw, h.isLt⟩⟩
  | cugexk i j h => exact ⟨i, j, h.toNat, rfl, by simp [Instr.mnemonic, Mnemonic.instr], fun hw => ⟨of_decide_eq_true hw, h.isLt⟩⟩
  | _ i j k =>
    refine ⟨i, j, k, rfl, rfl, fun hw => ?_⟩
    simp only [Instr.wellFormed, Bool.and_eq_true, regFits, decide_eq_true_eq] at hw
    exact hw

end Sys2Proof
end

