-- ==== Sys2Proof/Laws/Operands.lean ====
section
/-! SUPPORT. What reading the operands can do: with the registers there, go on with their words; without
one of them, refuse by its number. -/

namespace Sys2Proof.Machine

variable {s t : State} {n j k : Nat}

/-- A next state comes from the continuation, on the word of the register read. -/
theorem withA_next {f : ArithWord → Host.Outcome State Fault Refusal} :
    withA s n f = .next t ↔ ∃ w, s.a[n]? = some w ∧ f w = .next t := by
  unfold withA State.readA
  cases s.a[n]? <;> simp

/-- A next state comes from the continuation, on the word of the register read. -/
theorem withX_next {f : IndexWord → Host.Outcome State Fault Refusal} :
    withX s n f = .next t ↔ ∃ w, s.x[n]? = some w ∧ f w = .next t := by
  unfold withX State.readX
  cases s.x[n]? <;> simp

theorem withArith_next {f : ArithWord → ArithWord → Host.Outcome State Fault Refusal} :
    withArith s j k f = .next t ↔ ∃ v w, s.a[j]? = some v ∧ s.a[k]? = some w ∧ f v w = .next t := by
  simp only [withArith, withA_next]
  constructor
  · rintro ⟨v, hv, w, hw, h⟩; exact ⟨v, w, hv, hw, h⟩
  · rintro ⟨v, w, hv, hw, h⟩; exact ⟨v, hv, w, hw, h⟩

theorem withIndex_next {f : IndexWord → IndexWord → Host.Outcome State Fault Refusal} :
    withIndex s j k f = .next t ↔ ∃ v w, s.x[j]? = some v ∧ s.x[k]? = some w ∧ f v w = .next t := by
  simp only [withIndex, withX_next]
  constructor
  · rintro ⟨v, hv, w, hw, h⟩; exact ⟨v, w, hv, hw, h⟩
  · rintro ⟨v, w, hv, hw, h⟩; exact ⟨v, hv, w, hw, h⟩

theorem withPairs_next {f : ArithPair → ArithPair → Host.Outcome State Fault Refusal} :
    withPairs s j k f = .next t ↔ ∃ p q : ArithPair, s.a[j]? = some p.1 ∧ s.a[j + 1]? = some p.2 ∧
      s.a[k]? = some q.1 ∧ s.a[k + 1]? = some q.2 ∧ f p q = .next t := by
  simp only [withPairs, withPair, withArith_next]
  constructor
  · rintro ⟨a, b, ha, hb, c, d, hc, hd, h⟩; exact ⟨(a, b), (c, d), ha, hb, hc, hd, h⟩
  · rintro ⟨p, q, ha, hb, hc, hd, h⟩; exact ⟨p.1, p.2, ha, hb, q.1, q.2, hc, hd, h⟩

/-- With both registers there the continuation runs on their words. -/
theorem withArith_of_some {f : ArithWord → ArithWord → Host.Outcome State Fault Refusal} {v w : ArithWord}
    (hv : s.a[j]? = some v) (hw : s.a[k]? = some w) : withArith s j k f = f v w := by
  simp [withArith, withA, State.readA, hv, hw]

/-- With both registers there the continuation runs on their words. -/
theorem withIndex_of_some {f : IndexWord → IndexWord → Host.Outcome State Fault Refusal} {v w : IndexWord}
    (hv : s.x[j]? = some v) (hw : s.x[k]? = some w) : withIndex s j k f = f v w := by
  simp [withIndex, withX, State.readX, hv, hw]

/-- With the register there the continuation runs on its word. -/
theorem withX_of_some {f : IndexWord → Host.Outcome State Fault Refusal} {v : IndexWord}
    (hv : s.x[j]? = some v) : withX s j f = f v := by
  simp [withX, State.readX, hv]

/-- With the four registers there the continuation runs on the two pairs. -/
theorem withPairs_of_some {f : ArithPair → ArithPair → Host.Outcome State Fault Refusal} {p q : ArithPair}
    (h1 : s.a[j]? = some p.1) (h2 : s.a[j + 1]? = some p.2) (h3 : s.a[k]? = some q.1)
    (h4 : s.a[k + 1]? = some q.2) : withPairs s j k f = f p q := by
  simp [withPairs, withPair, withArith, withA, State.readA, h1, h2, h3, h4]

/-- Both fields of a double precision compare are even when neither is odd (R67). -/
theorem oddField_eq_false : oddField j k = false ↔ j % 2 = 0 ∧ k % 2 = 0 := by
  simp [oddField]

theorem oddField_eq_true : oddField j k = true ↔ j % 2 = 1 ∨ k % 2 = 1 := by
  simp [oddField]

/-- The base of a CBMA segment depends on the leading two bits of `i` alone (R45). -/
theorem baseOf8_eq (i : BitVec 5) : baseOf8 i = 8 * (i.toNat / 8) := by
  unfold baseOf8; omega

/-- The base of a CBMX segment depends on the leading three bits of `i` alone (R45). -/
theorem baseOf4_eq (i : BitVec 5) : baseOf4 i = 4 * (i.toNat / 4) := by
  unfold baseOf4; omega

/-- Operand byte `n` of an `A` register as a number (R119, D1). -/
theorem byteA_toNat (w : ArithWord) (n : Nat) : (byteA w n).toNat = w.toNat / 2 ^ (48 - 8 * n) % 256 := by
  simp [byteA, byteLow, Config.bit0Msb, BitVec.extractLsb'_toNat, Nat.shiftRight_eq_div_pow]

/-- Operand byte `n` of an `X` register as a number (R119, D1). -/
theorem byteX_toNat (w : IndexWord) (n : Nat) : (byteX w n).toNat = w.toNat / 2 ^ (24 - 8 * n) % 256 := by
  simp [byteX, byteLow, Config.bit0Msb, BitVec.extractLsb'_toNat, Nat.shiftRight_eq_div_pow]

theorem testA_toNat (w : ArithWord) : (testA w).toNat = w.toNat % 256 := by
  simp [testA, BitVec.extractLsb'_toNat]

theorem testX_toNat (w : IndexWord) : (testX w).toNat = w.toNat % 256 := by
  simp [testX, BitVec.extractLsb'_toNat]

/-- `is_u` of a single precision operand, as Safety.lean writes it (R82). -/
theorem isU_iff (w : ArithWord) : isU w = true ↔ IsUSingle w := by
  simp [isU, u48, Config.bit0Msb, IsUSingle]

/-- `FP.is_u_d` of a double precision operand, as Safety.lean writes it (R82, D12). -/
theorem isUD_iff (fp : FP) (p : ArithPair) : isUD fp p = true ↔ IsUDouble fp p := by
  simp [isUD, u48, Config.bit0Msb, IsUDouble]

end Sys2Proof.Machine
end

