-- ==== Sys2Proof/Laws/State.lean ====
section
/-! SUPPORT. One lemma for each field of State after each update, so that no proof unfolds a record
update. -/

namespace Sys2Proof.Machine

@[simp] theorem State.setExc_a (s : State) (raised : ExcBits) : (s.setExc raised).a = s.a := rfl
@[simp] theorem State.setExc_x (s : State) (raised : ExcBits) : (s.setExc raised).x = s.x := rfl
@[simp] theorem State.setExc_c (s : State) (raised : ExcBits) : (s.setExc raised).c = s.c := rfl
@[simp] theorem State.setExc_exc (s : State) (raised : ExcBits) : (s.setExc raised).exc = s.exc.union raised := rfl
@[simp] theorem State.setExc_pc (s : State) (raised : ExcBits) : (s.setExc raised).pc = s.pc := rfl
@[simp] theorem State.setExc_fault (s : State) (raised : ExcBits) : (s.setExc raised).fault = s.fault := rfl
@[simp] theorem State.setExc_prog (s : State) (raised : ExcBits) : (s.setExc raised).prog = s.prog := rfl
@[simp] theorem State.setExc_policy (s : State) (raised : ExcBits) : (s.setExc raised).policy = s.policy := rfl
@[simp] theorem State.setExc_draws (s : State) (raised : ExcBits) : (s.setExc raised).draws = s.draws := rfl

@[simp] theorem State.advance_a (s : State) : (s.advance).a = s.a := rfl
@[simp] theorem State.advance_x (s : State) : (s.advance).x = s.x := rfl
@[simp] theorem State.advance_c (s : State) : (s.advance).c = s.c := rfl
@[simp] theorem State.advance_exc (s : State) : (s.advance).exc = s.exc := rfl
@[simp] theorem State.advance_pc (s : State) : (s.advance).pc = s.pc + 1 := rfl
@[simp] theorem State.advance_fault (s : State) : (s.advance).fault = s.fault := rfl
@[simp] theorem State.advance_prog (s : State) : (s.advance).prog = s.prog := rfl
@[simp] theorem State.advance_policy (s : State) : (s.advance).policy = s.policy := rfl
@[simp] theorem State.advance_draws (s : State) : (s.advance).draws = s.draws := rfl

@[simp] theorem State.recordFault_a (s : State) (raised : ExcBits) : (s.recordFault raised).a = s.a := rfl
@[simp] theorem State.recordFault_x (s : State) (raised : ExcBits) : (s.recordFault raised).x = s.x := rfl
@[simp] theorem State.recordFault_c (s : State) (raised : ExcBits) : (s.recordFault raised).c = s.c := rfl
@[simp] theorem State.recordFault_exc (s : State) (raised : ExcBits) : (s.recordFault raised).exc = s.exc := rfl
@[simp] theorem State.recordFault_pc (s : State) (raised : ExcBits) : (s.recordFault raised).pc = s.pc := rfl
@[simp] theorem State.recordFault_fault (s : State) (raised : ExcBits) : (s.recordFault raised).fault = some { raised := raised, pc := s.pc } := rfl
@[simp] theorem State.recordFault_prog (s : State) (raised : ExcBits) : (s.recordFault raised).prog = s.prog := rfl
@[simp] theorem State.recordFault_policy (s : State) (raised : ExcBits) : (s.recordFault raised).policy = s.policy := rfl
@[simp] theorem State.recordFault_draws (s : State) (raised : ExcBits) : (s.recordFault raised).draws = s.draws := rfl

@[simp] theorem State.oddRegister_a (s : State) : (s.oddRegister).a = s.a := rfl
@[simp] theorem State.oddRegister_x (s : State) : (s.oddRegister).x = s.x := rfl
@[simp] theorem State.oddRegister_c (s : State) : (s.oddRegister).c = s.c := rfl
@[simp] theorem State.oddRegister_exc (s : State) : (s.oddRegister).exc = s.exc.union { uo := false, cc := false, rs := true } := rfl
@[simp] theorem State.oddRegister_pc (s : State) : (s.oddRegister).pc = s.pc := rfl
@[simp] theorem State.oddRegister_fault (s : State) : (s.oddRegister).fault = some { raised := { uo := false, cc := false, rs := true }, pc := s.pc } := rfl
@[simp] theorem State.oddRegister_prog (s : State) : (s.oddRegister).prog = s.prog := rfl
@[simp] theorem State.oddRegister_policy (s : State) : (s.oddRegister).policy = s.policy := rfl
@[simp] theorem State.oddRegister_draws (s : State) : (s.oddRegister).draws = s.draws := rfl

/-- The state after reset is the launch state of the values that the log names (log 1 to log 4). -/
theorem State.reset_eq_launch :
    State.reset = State.launch (List.replicate 32 0#48) (List.replicate 32 0#24) (Vector.replicate 24 false)
      ExcBits.none [] .fault := rfl

@[simp] theorem State.draw_bit (s : State) : s.draw.1 = Config.draw s.draws := rfl
@[simp] theorem State.draw_a (s : State) : s.draw.2.a = s.a := rfl
@[simp] theorem State.draw_x (s : State) : s.draw.2.x = s.x := rfl
@[simp] theorem State.draw_c (s : State) : s.draw.2.c = s.c := rfl
@[simp] theorem State.draw_exc (s : State) : s.draw.2.exc = s.exc := rfl
@[simp] theorem State.draw_pc (s : State) : s.draw.2.pc = s.pc := rfl
@[simp] theorem State.draw_fault (s : State) : s.draw.2.fault = s.fault := rfl
@[simp] theorem State.draw_prog (s : State) : s.draw.2.prog = s.prog := rfl
@[simp] theorem State.draw_policy (s : State) : s.draw.2.policy = s.policy := rfl
@[simp] theorem State.draw_draws (s : State) : s.draw.2.draws = s.draws + 1 := rfl

@[simp] theorem State.setC_a (s : State) (n : Nat) (v : Bool) : (s.setC n v).a = s.a := by
  unfold State.setC; split <;> rfl
@[simp] theorem State.setC_x (s : State) (n : Nat) (v : Bool) : (s.setC n v).x = s.x := by
  unfold State.setC; split <;> rfl
@[simp] theorem State.setC_exc (s : State) (n : Nat) (v : Bool) : (s.setC n v).exc = s.exc := by
  unfold State.setC; split <;> rfl
@[simp] theorem State.setC_pc (s : State) (n : Nat) (v : Bool) : (s.setC n v).pc = s.pc := by
  unfold State.setC; split <;> rfl
@[simp] theorem State.setC_fault (s : State) (n : Nat) (v : Bool) : (s.setC n v).fault = s.fault := by
  unfold State.setC; split <;> rfl
@[simp] theorem State.setC_prog (s : State) (n : Nat) (v : Bool) : (s.setC n v).prog = s.prog := by
  unfold State.setC; split <;> rfl
@[simp] theorem State.setC_policy (s : State) (n : Nat) (v : Bool) : (s.setC n v).policy = s.policy := by
  unfold State.setC; split <;> rfl
@[simp] theorem State.setC_draws (s : State) (n : Nat) (v : Bool) : (s.setC n v).draws = s.draws := by
  unfold State.setC; split <;> rfl

/-- `SetC` writes the bit it names, if it exists, and no other. -/
@[simp] theorem State.setC_c (s : State) (n m : Nat) (v : Bool) :
    (s.setC n v).c[m]? = if m = n ∧ n < 24 then some v else s.c[m]? := by
  unfold State.setC
  split
  · rename_i h
    by_cases hm : m = n
    · subst hm; simp [h]
    · simp [hm, Ne.symm hm]
  · rename_i h
    simp [h]

@[simp] theorem State.setCs_nil (s : State) : s.setCs [] = s := rfl
@[simp] theorem State.setCs_cons (s : State) (n : Nat) (v : Bool) (ws : List (Nat × Bool)) :
    s.setCs ((n, v) :: ws) = (s.setC n v).setCs ws := rfl

@[simp] theorem State.setCs_a (s : State) (ws : List (Nat × Bool)) : (s.setCs ws).a = s.a := by
  induction ws generalizing s with
  | nil => rfl
  | cons w ws ih => rw [State.setCs_cons, ih, State.setC_a]
@[simp] theorem State.setCs_x (s : State) (ws : List (Nat × Bool)) : (s.setCs ws).x = s.x := by
  induction ws generalizing s with
  | nil => rfl
  | cons w ws ih => rw [State.setCs_cons, ih, State.setC_x]
@[simp] theorem State.setCs_exc (s : State) (ws : List (Nat × Bool)) : (s.setCs ws).exc = s.exc := by
  induction ws generalizing s with
  | nil => rfl
  | cons w ws ih => rw [State.setCs_cons, ih, State.setC_exc]
@[simp] theorem State.setCs_pc (s : State) (ws : List (Nat × Bool)) : (s.setCs ws).pc = s.pc := by
  induction ws generalizing s with
  | nil => rfl
  | cons w ws ih => rw [State.setCs_cons, ih, State.setC_pc]
@[simp] theorem State.setCs_fault (s : State) (ws : List (Nat × Bool)) : (s.setCs ws).fault = s.fault := by
  induction ws generalizing s with
  | nil => rfl
  | cons w ws ih => rw [State.setCs_cons, ih, State.setC_fault]
@[simp] theorem State.setCs_prog (s : State) (ws : List (Nat × Bool)) : (s.setCs ws).prog = s.prog := by
  induction ws generalizing s with
  | nil => rfl
  | cons w ws ih => rw [State.setCs_cons, ih, State.setC_prog]
@[simp] theorem State.setCs_policy (s : State) (ws : List (Nat × Bool)) : (s.setCs ws).policy = s.policy := by
  induction ws generalizing s with
  | nil => rfl
  | cons w ws ih => rw [State.setCs_cons, ih, State.setC_policy]
@[simp] theorem State.setCs_draws (s : State) (ws : List (Nat × Bool)) : (s.setCs ws).draws = s.draws := by
  induction ws generalizing s with
  | nil => rfl
  | cons w ws ih => rw [State.setCs_cons, ih, State.setC_draws]

end Sys2Proof.Machine
end

