-- ==== Sys2Proof/Laws/Ops.lean ====
section
/-! SUPPORT. What the shared operations of Machine/Ops.lean can do, said once for each. -/

namespace Sys2Proof.Machine

@[simp] theorem ExcBits.any_eq_false (e : ExcBits) : e.any = false ↔ e = ExcBits.none := by
  rcases e with ⟨u, c, r⟩
  cases u <;> cases c <;> cases r <;> decide

theorem ExcBits.any_eq_true (e : ExcBits) : e.any = true ↔ e ≠ ExcBits.none := by
  rw [ne_eq, ← ExcBits.any_eq_false, Bool.not_eq_false]

/-- Taking an exception leaves the condition bits alone. -/
@[simp] theorem State.takeException_c (s : State) (raised : ExcBits) :
    (s.takeException raised).c = s.c := by
  unfold State.takeException; split <;> rfl

/-- Taking an exception makes no draw. -/
@[simp] theorem State.takeException_draws (s : State) (raised : ExcBits) :
    (s.takeException raised).draws = s.draws := by
  unfold State.takeException; split <;> rfl

/-- The end of an instruction leaves the condition bits alone. -/
@[simp] theorem State.retire_c (s : State) (raised : ExcBits) : (s.retire raised).c = s.c := by
  unfold State.retire; split <;> simp

/-- The end of an instruction makes no draw. -/
@[simp] theorem State.retire_draws (s : State) (raised : ExcBits) :
    (s.retire raised).draws = s.draws := by
  unfold State.retire; split <;> simp

/-- An instruction that raises nothing ends by advancing `pc` (R68). -/
theorem State.retire_none (s : State) : s.retire ExcBits.none = s.advance := rfl

/-- Everything the end of an instruction does (R68, R130, R131). -/
theorem State.retire_retires (s : State) (raised : ExcBits) : Retires raised s (s.retire raised) := by
  by_cases h : raised.any = true
  · have hn := (ExcBits.any_eq_true raised).1 h
    cases hp : s.policy <;>
      constructor <;> simp [State.retire, State.takeException, h, hp, hn, ExcBits.union]
  · have h' : raised.any = false := by simpa using h
    obtain rfl := (ExcBits.any_eq_false raised).1 h'
    rw [State.retire_none]
    constructor <;> simp [ExcBits.none]

/-- Only the components that `SetC` leaves alone matter to what the end of an instruction does. -/
theorem Retires.of_setCs {raised : ExcBits} {s t : State} {ws : List (Nat × Bool)}
    (h : Retires raised (s.setCs ws) t) : Retires raised s t := by
  obtain ⟨h1, h2, h3, h4, h5, h6, h7, h8, h9⟩ := h
  simp only [State.setCs_a, State.setCs_x, State.setCs_prog, State.setCs_policy, State.setCs_exc,
    State.setCs_pc, State.setCs_fault] at h1 h2 h3 h4 h5 h6 h7 h8 h9
  exact ⟨h1, h2, h3, h4, h5, h6, h7, h8, h9⟩

/-- Everything the commit of an instruction does outside the condition bits and the draw count. -/
theorem State.commit_retires (s : State) (ws : List (Nat × Bool)) (uo : Bool) :
    Retires { uo := uo, cc := conditionChecks ws, rs := false } s (s.commit ws uo) :=
  Retires.of_setCs (State.retire_retires _ _)

/-- The commit of an instruction writes no `A` register. -/
@[simp] theorem State.commit_a (s : State) (ws : List (Nat × Bool)) (uo : Bool) :
    (s.commit ws uo).a = s.a :=
  (State.commit_retires s ws uo).a

/-- The commit of an instruction writes no `X` register. -/
@[simp] theorem State.commit_x (s : State) (ws : List (Nat × Bool)) (uo : Bool) :
    (s.commit ws uo).x = s.x :=
  (State.commit_retires s ws uo).x

/-- The commit of an instruction leaves the program list alone. -/
@[simp] theorem State.commit_prog (s : State) (ws : List (Nat × Bool)) (uo : Bool) :
    (s.commit ws uo).prog = s.prog :=
  (State.commit_retires s ws uo).prog

/-- The commit of an instruction leaves `EXC_POLICY` alone. -/
@[simp] theorem State.commit_policy (s : State) (ws : List (Nat × Bool)) (uo : Bool) :
    (s.commit ws uo).policy = s.policy :=
  (State.commit_retires s ws uo).policy

/-- The condition bits after the commit of an instruction are those its `SetC` calls leave. -/
@[simp] theorem State.commit_c (s : State) (ws : List (Nat × Bool)) (uo : Bool) :
    (s.commit ws uo).c = (s.setCs ws).c := by
  simp [State.commit]

/-- The commit of an instruction makes no draw. -/
@[simp] theorem State.commit_draws (s : State) (ws : List (Nat × Bool)) (uo : Bool) :
    (s.commit ws uo).draws = s.draws := by
  simp [State.commit]

/-- What putting an instruction at a position of a program list leaves there. -/
theorem putAt_self (i : Instr) (n : Nat) (p : List Instr) : (putAt i n p)[n]? = some i := by
  induction n generalizing p with
  | zero => cases p <;> rfl
  | succ n ih => cases p <;> simp [putAt, ih]

/-- Putting an instruction at a position leaves the other instructions of the list alone. -/
theorem putAt_other (i : Instr) {n m : Nat} (p : List Instr) (hm : m ≠ n) (hp : m < p.length) :
    (putAt i n p)[m]? = p[m]? := by
  induction n generalizing p m with
  | zero =>
    cases p with
    | nil => simp at hp
    | cons a p => cases m with
      | zero => exact absurd rfl hm
      | succ m => rfl
  | succ n ih =>
    cases p with
    | nil => simp at hp
    | cons a p => cases m with
      | zero => rfl
      | succ m =>
        simp only [putAt, List.getElem?_cons_succ]
        exact ih p (by omega) (by simpa using hp)

end Sys2Proof.Machine
end

