-- ==== Sys2Proof/Laws/Flags.lean ====
section
/-! SUPPORT. What the relations, the match vectors and the lists of `SetC` calls come to. -/

namespace Sys2Proof.Machine

/-- The signed reading of a word is its two's-complement integer (R99, D2). -/
theorem sint_eq_toInt {n : Nat} (w : BitVec n) : sint w = w.toInt := by
  have hlt := w.isLt
  rw [sint, BitVec.toInt_eq_msb_cond]
  split <;> simp

/-- `sge48` and `sge24` compare two's-complement integers (R99). -/
theorem sge_eq {n : Nat} (a b : BitVec n) : sge a b = decide (a.toInt ≥ b.toInt) := by
  simp [sge, sint_eq_toInt]

/-- Two bytes are identical when they spell the same number. -/
theorem byte_beq (a b : Byte) : (a == b) = decide (a.toNat = b.toNat) := by
  rw [Bool.eq_iff_iff]
  simp [BitVec.toNat_inj]

/-- The match vector of an `A` register, lane by lane (R119). -/
theorem matchA_eq (v w : ArithWord) :
    matchA (testA v) w = [1, 2, 3, 4, 5, 6].map fun m => decide (v.toNat % 256 = w.toNat / 2 ^ (48 - 8 * m) % 256) := by
  simp only [matchA, byte_beq, byteA_toNat, testA_toNat, List.map]

/-- The match vector of an `X` register, lane by lane (R119). -/
theorem matchX_eq (v w : IndexWord) :
    matchX (testX v) w = [1, 2, 3].map fun m => decide (v.toNat % 256 = w.toNat / 2 ^ (24 - 8 * m) % 256) := by
  simp only [matchX, byte_beq, byteX_toNat, testX_toNat, List.map]

/-- When the one `SetC` call of a single-bit compare raises `CC` (R62, R69). -/
theorem conditionChecks_single (i : BitVec 5) (r : Bool) :
    conditionChecks (singleWrite i r) = decide (i.toNat = 24 ∧ r = false ∨ i.toNat = 25 ∧ r = true) := by
  rw [Bool.eq_iff_iff]
  simp [conditionChecks, singleWrite, conditionCheck]

/-- The condition bits after the one `SetC` call of a single-bit compare (R60). -/
theorem setCs_single_c (s : State) (i : BitVec 5) (r : Bool) {n : Nat} (hn : n < 24) :
    (s.setCs (singleWrite i r)).c[n]? = if n = i.toNat then some r else s.c[n]? := by
  by_cases h : n = i.toNat <;> simp [singleWrite, h]
  omega

/-- The three cases of the result of a floating-point compare (R92, R93). -/
theorem floatResult_cases (s : State) (n1 u1 n2 u2 r : Bool) :
    (drawsResult n1 u1 n2 u2 = true ∧ s.floatResult n1 u1 n2 u2 r = (Config.draw s.draws, s.draw.2)) ∨
    (drawsResult n1 u1 n2 u2 = false ∧ (u1 || u2) = true ∧ s.floatResult n1 u1 n2 u2 r = (false, s)) ∨
    (drawsResult n1 u1 n2 u2 = false ∧ (u1 || u2) = false ∧ s.floatResult n1 u1 n2 u2 r = (r, s)) := by
  unfold State.floatResult
  cases drawsResult n1 u1 n2 u2 <;> cases u1 <;> cases u2 <;> simp [State.draw]

end Sys2Proof.Machine
end

