-- ==== Sys2Proof/Laws/PerInstr.lean ====
section
/-! SUPPORT. The per-instruction family `EncodedForm`: whatever the open encoding parameters, the word of every
instruction has the length of its format and begins with its `op` value (30_encoding.md rules R40, R48). -/

namespace Sys2Proof.Laws.EncodedForm

/-- The word of the instruction has `LEN_I` or `LEN_II` bits, and its leftmost `W_OP` bits are its value
under `OPMAP`. -/
def Statement (ins : Instr) : Prop :=
  ∀ e : Encoding, e.Valid →
    (encode e ins).length = (e.format ins.mnemonic).len ∧
    numberOf ((encode e ins).take e.wOp) = e.opMap ins.mnemonic

/-- An instruction whose encoding is a word of its mnemonic has the form. -/
theorem of_word {ins : Instr} {i : BitVec 5} {j last : Nat}
    (h : ∀ e, encode e ins = e.word ins.mnemonic i j last) : Statement ins := by
  intro e he
  rw [h e]
  refine ⟨Encoding.word_length he _ _ _ _, ?_⟩
  rw [Encoding.word, List.take_left' (bitsOf_length _ _), numberOf_bitsOf_of_lt (he.opFits _)]

theorem cgen (i : BitVec 5) (j k : Nat) : Statement (.cgen i j k) := of_word fun _ => rfl
theorem ceqn (i : BitVec 5) (j k : Nat) : Statement (.ceqn i j k) := of_word fun _ => rfl
theorem cged (i : BitVec 5) (j k : Nat) : Statement (.cged i j k) := of_word fun _ => rfl
theorem ceqd (i : BitVec 5) (j k : Nat) : Statement (.ceqd i j k) := of_word fun _ => rfl
theorem cmgen (i : BitVec 5) (j k : Nat) : Statement (.cmgen i j k) := of_word fun _ => rfl
theorem cmeqn (i : BitVec 5) (j k : Nat) : Statement (.cmeqn i j k) := of_word fun _ => rfl
theorem cmged (i : BitVec 5) (j k : Nat) : Statement (.cmged i j k) := of_word fun _ => rfl
theorem cmeqd (i : BitVec 5) (j k : Nat) : Statement (.cmeqd i j k) := of_word fun _ => rfl
theorem cgei (i : BitVec 5) (j k : Nat) : Statement (.cgei i j k) := of_word fun _ => rfl
theorem ceqi (i : BitVec 5) (j k : Nat) : Statement (.ceqi i j k) := of_word fun _ => rfl
theorem cugei (i : BitVec 5) (j k : Nat) : Statement (.cugei i j k) := of_word fun _ => rfl
theorem cgex (i : BitVec 5) (j k : Nat) : Statement (.cgex i j k) := of_word fun _ => rfl
theorem ceqx (i : BitVec 5) (j k : Nat) : Statement (.ceqx i j k) := of_word fun _ => rfl
theorem cugex (i : BitVec 5) (j k : Nat) : Statement (.cugex i j k) := of_word fun _ => rfl
theorem cgexk (i : BitVec 5) (j : Nat) (h : Literal) : Statement (.cgexk i j h) := of_word fun _ => rfl
theorem ceqxk (i : BitVec 5) (j : Nat) (h : Literal) : Statement (.ceqxk i j h) := of_word fun _ => rfl
theorem cugexk (i : BitVec 5) (j : Nat) (h : Literal) : Statement (.cugexk i j h) := of_word fun _ => rfl
theorem cba (i : BitVec 5) (j k : Nat) : Statement (.cba i j k) := of_word fun _ => rfl
theorem cbma (i : BitVec 5) (j k : Nat) : Statement (.cbma i j k) := of_word fun _ => rfl
theorem cbx (i : BitVec 5) (j k : Nat) : Statement (.cbx i j k) := of_word fun _ => rfl
theorem cbmx (i : BitVec 5) (j k : Nat) : Statement (.cbmx i j k) := of_word fun _ => rfl

end Sys2Proof.Laws.EncodedForm
end

