-- ==== Sys2Proof/Tests/Slice0.lean ====
section
/-! SUPPORT. The model's own tests. Expected values come from spec/: the tables of 95_test_vectors.md (named by
section) and the examples of the rules. Then one witness for each statement that has hypotheses. -/

namespace Sys2Proof.Tests

open Sys2Proof Sys2Proof.Machine

/-! ## Well-formedness: an ill-formed term for each check (00_scope.md rule R6) -/

theorem test_wellFormed_refuses_j : ([
    .cgen 0 32 0,
    .ceqn 0 32 0,
    .cged 0 32 0,
    .ceqd 0 32 0,
    .cmgen 0 32 0,
    .cmeqn 0 32 0,
    .cmged 0 32 0,
    .cmeqd 0 32 0,
    .cgei 0 32 0,
    .ceqi 0 32 0,
    .cugei 0 32 0,
    .cgex 0 32 0,
    .ceqx 0 32 0,
    .cugex 0 32 0,
    .cgexk 0 32 0#24,
    .ceqxk 0 32 0#24,
    .cugexk 0 32 0#24,
    .cba 0 32 0,
    .cbma 0 32 0,
    .cbx 0 32 0,
    .cbmx 0 32 0] : List Instr).all (fun i => !i.wellFormed encRef.wR) = true := by decide

theorem test_wellFormed_refuses_k : ([
    .cgen 0 0 32,
    .ceqn 0 0 32,
    .cged 0 0 32,
    .ceqd 0 0 32,
    .cmgen 0 0 32,
    .cmeqn 0 0 32,
    .cmged 0 0 32,
    .cmeqd 0 0 32,
    .cgei 0 0 32,
    .ceqi 0 0 32,
    .cugei 0 0 32,
    .cgex 0 0 32,
    .ceqx 0 0 32,
    .cugex 0 0 32,
    .cba 0 0 32,
    .cbma 0 0 32,
    .cbx 0 0 32,
    .cbmx 0 0 32] : List Instr).all (fun i => !i.wellFormed encRef.wR) = true := by decide

theorem test_wellFormed_accepts_31 : ([
    .cgen 31 31 31,
    .ceqn 31 31 31,
    .cged 31 31 31,
    .ceqd 31 31 31,
    .cmgen 31 31 31,
    .cmeqn 31 31 31,
    .cmged 31 31 31,
    .cmeqd 31 31 31,
    .cgei 31 31 31,
    .ceqi 31 31 31,
    .cugei 31 31 31,
    .cgex 31 31 31,
    .ceqx 31 31 31,
    .cugex 31 31 31,
    .cgexk 31 31 0xFFFFFF#24,
    .ceqxk 31 31 0xFFFFFF#24,
    .cugexk 31 31 0xFFFFFF#24,
    .cba 31 31 31,
    .cbma 31 31 31,
    .cbx 31 31 31,
    .cbmx 31 31 31] : List Instr).all (Instr.wellFormed encRef.wR) = true := by decide

/-! ## Decoding: the words of 95_test_vectors.md section 2.8, written out for every instruction -/

theorem test_decode_cgen : decode encRef (bitsOf 24 0x008C44) = .instr (.cgen 3 2 4) [] := by decide
theorem test_decode_ceqn : decode encRef (bitsOf 24 0x010C44) = .instr (.ceqn 3 2 4) [] := by decide
theorem test_decode_cged : decode encRef (bitsOf 24 0x018C44) = .instr (.cged 3 2 4) [] := by decide
theorem test_decode_ceqd : decode encRef (bitsOf 24 0x020C44) = .instr (.ceqd 3 2 4) [] := by decide
theorem test_decode_cmgen : decode encRef (bitsOf 24 0x028C44) = .instr (.cmgen 3 2 4) [] := by decide
theorem test_decode_cmeqn : decode encRef (bitsOf 24 0x030C44) = .instr (.cmeqn 3 2 4) [] := by decide
theorem test_decode_cmged : decode encRef (bitsOf 24 0x038C44) = .instr (.cmged 3 2 4) [] := by decide
theorem test_decode_cmeqd : decode encRef (bitsOf 24 0x040C44) = .instr (.cmeqd 3 2 4) [] := by decide
theorem test_decode_cgei : decode encRef (bitsOf 24 0x048C44) = .instr (.cgei 3 2 4) [] := by decide
theorem test_decode_ceqi : decode encRef (bitsOf 24 0x050C44) = .instr (.ceqi 3 2 4) [] := by decide
theorem test_decode_cugei : decode encRef (bitsOf 24 0x058C44) = .instr (.cugei 3 2 4) [] := by decide
theorem test_decode_cgex : decode encRef (bitsOf 24 0x060C44) = .instr (.cgex 3 2 4) [] := by decide
theorem test_decode_ceqx : decode encRef (bitsOf 24 0x068C44) = .instr (.ceqx 3 2 4) [] := by decide
theorem test_decode_cugex : decode encRef (bitsOf 24 0x070C44) = .instr (.cugex 3 2 4) [] := by decide
theorem test_decode_cgexk : decode encRef (bitsOf 48 0x078C4000000A) = .instr (.cgexk 3 2 0x00000A) [] := by decide
theorem test_decode_ceqxk : decode encRef (bitsOf 48 0x080C4000000A) = .instr (.ceqxk 3 2 0x00000A) [] := by decide
theorem test_decode_cugexk : decode encRef (bitsOf 48 0x088C4000000A) = .instr (.cugexk 3 2 0x00000A) [] := by decide
theorem test_decode_cba : decode encRef (bitsOf 24 0x090C44) = .instr (.cba 3 2 4) [] := by decide
theorem test_decode_cbma : decode encRef (bitsOf 24 0x098C44) = .instr (.cbma 3 2 4) [] := by decide
theorem test_decode_cbx : decode encRef (bitsOf 24 0x0A0C44) = .instr (.cbx 3 2 4) [] := by decide
theorem test_decode_cbmx : decode encRef (bitsOf 24 0x0A8C44) = .instr (.cbmx 3 2 4) [] := by decide

/-- CBMA 29, 1, 2 written bit by bit: `op` 000010011, `i` 11101, `j` 00001, `k` 00010 (section 2.8). -/
theorem test_decode_bits_cbma :
    decode encRef (bitsOf 9 0b000010011 ++ bitsOf 5 0b11101 ++ bitsOf 5 0b00001 ++ bitsOf 5 0b00010) = .instr (.cbma 29 1 2) [] := by decide

/-- The words that section 2.8 says a decoder refuses. -/
theorem test_decode_refuses :
    decode encRef (bitsOf 24 0x000000) = .bad (.undefinedOp 0) ∧ decode encRef (bitsOf 24 0x0B0000) = .bad (.undefinedOp 22) ∧
    decode encRef (bitsOf 24 0xFFFFFF) = .bad (.undefinedOp 0x1FF) ∧
    decode encRef (bitsOf 48 0x078C2100000A) = .bad (.unusedNotZero [false, false, false, false, true]) ∧
    decode encRef (bitsOf 32 0x078C4000) = .bad .truncated := by decide

theorem test_encode_words :
    encode encRef (.cbma 29 1 2) = bitsOf 24 0x09F422 ∧ encode encRef (.ceqxk 25 1 7) = bitsOf 48 0x086420000007 := by
  decide

/-- The bytes of a word of the table, the leftmost first. -/
theorem test_table_word_bytes : decodeTableWord 48 0x086420000007 = some (.ceqxk 25 1 7) := by decide

/-- Program P3 of section 3 mixes 48-bit and 24-bit words. -/
theorem test_program_image :
    decodeProgram encRef (bitsOf 48 0x07FC20000000 ++ bitsOf 24 0x061021) = some [.cgexk 31 1 0, .cgex 4 1 1] := by
  decide

/-- Another instance of the open parameters (R48): `op:6 zero:1 i:5 zero:2 j:3 zero:3 k:3 zero:1` and
`op:6 i:5 j:3 zero:1 h:24 zero:2`, the opcode map of R49 turned round. -/
def otherEncoding : Encoding where
  wOp := 6
  wR := 3
  opMap m := 63 - refOp m
  formatI := { len := 24, afterOp := 1, afterI := 2, afterJ := 3 }
  formatII := { len := 41, afterOp := 0, afterI := 0, afterJ := 1 }

/-- CGEX is row 12 and CGEXK row 15, so their `op` values are 51 and 48; the fields are written out in the
order of R41 and R42, with the unused bits where the instance has them. -/
theorem test_decode_other_encoding :
    decode otherEncoding [true, true, false, false, true, true, false, true, true, true, false, true, false, false,
      false, false, true, false, false, false, false, true, false, false] = .instr (.cgex 29 1 2) [] ∧
    decode otherEncoding ([true, true, false, false, false, false, true, true, false, false, true, true, true, true,
      false] ++ bitsOf 24 10 ++ [false, false, true]) = .instr (.cgexk 25 7 10) [true] ∧
    decode otherEncoding (bitsOf 6 51 ++ bitsOf 18 1) = .bad (.unusedNotZero [false, false, false, false, false, false, true]) ∧
    Instr.wellFormed otherEncoding.wR (.cgex 0 8 0) = false := by decide

/-- The spelling of R53's example. -/
theorem test_assembly : (Instr.cgex 3 1 2).assembly = "CGEX 3, 1, 2" := by decide

/-! ## Every instruction of the table runs as the first one after reset -/

/-- Does the first step after reset answer a next state, with this word placed for it? -/
def runsFirst (nbits w : Nat) : Bool :=
  match step (State.reset.withFetchWord nbits w) with
  | .next _ => true
  | _ => false

theorem test_every_word_runs_first : [
runsFirst 24 0x008C44, runsFirst 24 0x010C44, runsFirst 24 0x018C44, runsFirst 24 0x020C44, runsFirst 24 0x028C44, runsFirst 24 0x030C44, runsFirst 24 0x038C44, runsFirst 24 0x040C44, runsFirst 24 0x048C44, runsFirst 24 0x050C44, runsFirst 24 0x058C44, runsFirst 24 0x060C44, runsFirst 24 0x068C44, runsFirst 24 0x070C44, runsFirst 48 0x078C4000000A, runsFirst 48 0x080C4000000A, runsFirst 48 0x088C4000000A, runsFirst 24 0x090C44, runsFirst 24 0x098C44, runsFirst 24 0x0A0C44, runsFirst 24 0x0A8C44].all id = true := by decide

/-! ## One step on a small state -/

/-- A state with four registers in each file and no condition bit set. -/
def small (a1 a2 : ArithWord) (x1 x2 : IndexWord) : State :=
  { State.reset with a := [0, a1, a2, 0], x := [0, x1, x2, 0] }

/-- `S0` after an instruction that answers a next state (`c0` is the leftmost bit). -/
def s0After (o : Host.Outcome State Fault Refusal) : Option (BitVec 24) :=
  match o with
  | .next t => some t.s0
  | _ => none

/-- The `pc`, the exception bits and the recorded fault after an instruction. -/
def excAfter (o : Host.Outcome State Fault Refusal) : Option (Nat × ExcBits × Option FaultRecord) :=
  match o with
  | .next t => some (t.pc, t.exc, t.fault)
  | _ => none

/-- The exceptions of a `CC` alone. -/
def onlyCC : ExcBits := { uo := false, cc := true, rs := false }

-- Section 2.2.
theorem test_cgei_signed :
    s0After (exec (.cgei 0 1 2) (small 0xFFFFFFFFFFFF 0 0 0)) = some 0 ∧
    s0After (exec (.cgei 0 1 2) (small 0x7FFFFFFFFFFF 0x800000000000 0 0)) = some 0x800000 := by decide
theorem test_ceqi :
    s0After (exec (.ceqi 5 1 2) (small 7 7 0 0)) = some 0x040000 ∧
    s0After (exec (.ceqi 5 1 2) (small 1 0x000001000000 0 0)) = some 0 := by decide
theorem test_cugei_unsigned :
    s0After (exec (.cugei 0 1 2) (small 0xFFFFFFFFFFFF 0 0 0)) = some 0x800000 ∧
    s0After (exec (.cugei 0 1 2) (small 0x7FFFFFFFFFFF 0x800000000000 0 0)) = some 0 := by decide

-- Section 2.3.
theorem test_cgex_signed :
    s0After (exec (.cgex 3 1 2) (small 0 0 0x000005 0xFFFFFE)) = some 0x100000 ∧
    s0After (exec (.cgex 3 1 2) (small 0 0 0x800000 0x7FFFFF)) = some 0 := by decide
theorem test_ceqx :
    s0After (exec (.ceqx 0 1 2) (small 0 0 0x000010 0x000011)) = some 0 ∧
    s0After (exec (.ceqx 23 1 2) (small 0 0 5 5)) = some 1 := by decide
theorem test_cugex_unsigned :
    s0After (exec (.cugex 3 1 2) (small 0 0 0x000005 0xFFFFFE)) = some 0 ∧
    s0After (exec (.cugex 3 1 2) (small 0 0 0xFFFFFE 0x000005)) = some 0x100000 := by decide

-- Section 2.4.
theorem test_cgexk_signed :
    s0After (exec (.cgexk 0 1 0x000064) (small 0 0 0xFFFFFF 0)) = some 0 ∧
    s0After (exec (.cgexk 0 1 0x800000) (small 0 0 0 0)) = some 0x800000 := by decide
theorem test_ceqxk :
    s0After (exec (.ceqxk 2 1 0xFFFFFF) (small 0 0 0xFFFFFF 0)) = some 0x200000 ∧
    s0After (exec (.ceqxk 2 1 0x00000A) (small 0 0 7 0)) = some 0 := by decide
theorem test_cugexk_unsigned :
    s0After (exec (.cugexk 0 1 0x000064) (small 0 0 0xFFFFFF 0)) = some 0x800000 ∧
    s0After (exec (.cugexk 0 1 0x800000) (small 0 0 0 0)) = some 0 := by decide

-- Section 2.6.
theorem test_cba :
    s0After (exec (.cba 4 1 2) (small 0xABCDEF000033 0x112233445566 0 0)) = some 0x080000 ∧
    s0After (exec (.cba 4 1 2) (small 0x000000000077 0x112233445566 0 0)) = some 0 := by decide

-- Section 2.6 and P2: the segment at 8, from a state with every condition bit set; c15 keeps its value.
theorem test_cbma_segment :
    s0After (exec (.cbma 11 1 2)
      { small 0x00000000002C 0x412C422C4344 0 0 with c := Vector.replicate 24 true }) = some 0xFFA9FF := by decide
theorem test_cbma_condition_check :
    excAfter (exec (.cbma 31 1 2) (small 0x11 0x112233445566 0 0)) =
      some (0, onlyCC, some { raised := onlyCC, pc := 0 }) ∧
    excAfter (exec (.cbma 24 1 2) (small 0x33 0x112233445566 0 0)) = some (1, ExcBits.none, none) := by decide

-- Section 2.7.
theorem test_cbx :
    s0After (exec (.cbx 0 1 2) (small 0 0 0xABCD41 0x414243)) = some 0x800000 ∧
    s0After (exec (.cbx 0 1 2) (small 0 0 0x000099 0x414243)) = some 0 := by decide
theorem test_cbmx_segment :
    s0After (exec (.cbmx 22 1 2) (small 0 0 0x000042 0x424142)) = some 0x00000D := by decide
theorem test_cbmx_condition_check :
    excAfter (exec (.cbmx 27 1 2) (small 0 0 0x42 0x424142)) =
      some (0, onlyCC, some { raised := onlyCC, pc := 0 }) ∧
    excAfter (exec (.cbmx 28 1 2) (small 0 0 0x99 0x414243)) = some (1, ExcBits.none, none) := by decide

-- Section 2.1: the `i` field where the clauses of `SetC` meet.
theorem test_bit_23_and_24 :
    excAfter (exec (.ceqx 23 1 2) (small 0 0 5 6)) = some (1, ExcBits.none, none) ∧
    excAfter (exec (.ceqx 24 1 2) (small 0 0 5 6)) = some (0, onlyCC, some { raised := onlyCC, pc := 0 }) ∧
    excAfter (exec (.ceqx 24 1 2) (small 0 0 5 5)) = some (1, ExcBits.none, none) := by decide
theorem test_bit_25_and_26 :
    excAfter (exec (.ceqx 25 1 2) (small 0 0 5 5)) = some (0, onlyCC, some { raised := onlyCC, pc := 0 }) ∧
    excAfter (exec (.ceqx 25 1 2) (small 0 0 5 6)) = some (1, ExcBits.none, none) ∧
    excAfter (exec (.ceqx 26 1 2) (small 0 0 5 6)) = some (1, ExcBits.none, none) := by decide

-- P4: under `continue` the bit is set and the run goes on.
theorem test_continue_policy :
    excAfter (exec (.ceqxk 25 1 7) { small 0 0 7 0 with policy := .continue }) = some (1, onlyCC, none) := by decide

/-- The number that a pair spells as one unsigned word. -/
def pairNumber (p : ArithPair) : Nat := p.1.toNat * 2 ^ 48 + p.2.toNat

/-- A record `FP` for the tests alone: a word or pair is unnormalized when its lowest bit is 1, and numbers
are ordered as unsigned words. It has the laws of R91. -/
def testFP : FP where
  unnormS w := w.getLsbD 0
  geS v w := decide (w.toNat ≤ v.toNat)
  eqS v w := decide (v.toNat = w.toNat)
  mgeS v w := decide (w.toNat ≤ v.toNat)
  meqS v w := decide (v.toNat = w.toNat)
  unnormD p := p.2.getLsbD 0
  isUDOpen _ := false
  geD p q := decide (pairNumber q ≤ pairNumber p)
  eqD p q := decide (pairNumber p = pairNumber q)
  mgeD p q := decide (pairNumber q ≤ pairNumber p)
  meqD p q := decide (pairNumber p = pairNumber q)

-- Section 2.5: the rows with `N`, `U` and `Un`.
theorem test_fcmpS_normal :
    s0After (fcmpS testFP testFP.geS 0 1 2 (small 4 2 0 0)) = some 0x800000 ∧
    s0After (fcmpS testFP testFP.geS 0 1 2 (small 2 4 0 0)) = some 0 := by decide
theorem test_fcmpS_u :
    s0After (fcmpS testFP testFP.geS 0 1 2 (small 0x800000000000 2 0 0)) = some 0 ∧
    s0After (fcmpS testFP testFP.eqS 0 1 1 (small 0x800000000000 0 0 0)) = some 0 ∧
    excAfter (fcmpS testFP testFP.geS 24 1 2 (small 0x800000000000 2 0 0)) =
      some (0, onlyCC, some { raised := onlyCC, pc := 0 }) := by decide
theorem test_fcmpS_unnormalized_raises_uo :
    (excAfter (fcmpS testFP testFP.geS 0 1 2 (small 3 0x800000000000 0 0))).map (fun r => r.2.1.uo) = some true := by
  decide
theorem test_fcmpD_u :
    s0After (fcmpD testFP testFP.geD 7 0 2
      { State.reset with a := [0x800000000000, 0, 2, 4] }) = some 0 := by decide
theorem test_fcmpD_normal :
    s0After (fcmpD testFP testFP.geD 7 0 2 { State.reset with a := [2, 6, 2, 4] }) = some 0x010000 ∧
    s0After (fcmpD testFP testFP.geD 7 0 2 { State.reset with a := [2, 4, 2, 6] }) = some 0 := by decide

/-! Which relation each floating-point instruction is (rules R83 to R90). -/

theorem test_cgen_relation : exec (.cgen 3 2 0) State.reset = fcmpS Config.fp Config.fp.geS 3 2 0 State.reset := rfl
theorem test_ceqn_relation : exec (.ceqn 3 2 0) State.reset = fcmpS Config.fp Config.fp.eqS 3 2 0 State.reset := rfl
theorem test_cmgen_relation : exec (.cmgen 3 2 0) State.reset = fcmpS Config.fp Config.fp.mgeS 3 2 0 State.reset := rfl
theorem test_cmeqn_relation : exec (.cmeqn 3 2 0) State.reset = fcmpS Config.fp Config.fp.meqS 3 2 0 State.reset := rfl
theorem test_cged_relation : exec (.cged 3 2 0) State.reset = fcmpD Config.fp Config.fp.geD 3 2 0 State.reset := rfl
theorem test_ceqd_relation : exec (.ceqd 3 2 0) State.reset = fcmpD Config.fp Config.fp.eqD 3 2 0 State.reset := rfl
theorem test_cmged_relation : exec (.cmged 3 2 0) State.reset = fcmpD Config.fp Config.fp.mgeD 3 2 0 State.reset := rfl
theorem test_cmeqd_relation : exec (.cmeqd 3 2 0) State.reset = fcmpD Config.fp Config.fp.meqD 3 2 0 State.reset := rfl

-- Section 2.5, P5: an odd register number, also with `i = 24`: `RS` only, under every policy.
theorem test_odd_register :
    [Instr.cged 0 3 4, .ceqd 0 2 5, .cmged 0 1 1, .cmeqd 24 3 4].all (fun i =>
      excAfter (exec i { State.reset with pc := 4, policy := .continue }) ==
        some (4, { uo := false, cc := false, rs := true },
          some { raised := { uo := false, cc := false, rs := true }, pc := 4 })) = true := by decide

-- R44: a register number that names no register.
theorem test_missing_register :
    (match exec (.cgei 0 1 4) (small 0 0 0 0) with | .refused (.noArithRegister 4) => true | _ => false) = true ∧
    (match exec (.cgexk 0 9 0) (small 0 0 0 0) with | .refused (.noIndexRegister 9) => true | _ => false) = true := by
  decide

-- R131, R153: a faulted state and the end of the program list have no step.
theorem test_no_step :
    (match step { State.reset with fault := some { raised := onlyCC, pc := 0 } } with
      | .fault (.recorded _) => true | _ => false) = true ∧
    (match step State.reset with | .refused .runOver => true | _ => false) = true ∧
    (match step { State.reset with pc := 1 } with | .refused .pcBeyondProgram => true | _ => false) = true := by decide

/-! ## Witnesses: for each statement with hypotheses, a state and operands that meet all of them -/

/-- Relations that compare a number read from each operand have the laws of R91. -/
theorem relationLaws_of_key {α : Type} (ok : α → Prop) (key : α → Nat) :
    RelationLaws ok (fun v w => decide (key w ≤ key v)) (fun v w => decide (key v = key w)) where
  ge_refl _ _ := decide_eq_true (Nat.le_refl _)
  eq_refl _ _ := decide_eq_true rfl
  total v w _ _ := by rw [decide_eq_true_eq, decide_eq_true_eq]; exact Nat.le_total _ _
  eq_iff v w _ _ := by simp only [decide_eq_true_eq]; omega
  ge_trans v w z _ _ _ := by simp only [decide_eq_true_eq]; omega

/-- `testFP` meets R91. -/
theorem testFP_lawful : testFP.Lawful where
  single := relationLaws_of_key _ BitVec.toNat
  singleMagnitude := relationLaws_of_key _ BitVec.toNat
  singleEqual _ _ _ _ h := h
  double := relationLaws_of_key _ pairNumber
  doubleMagnitude := relationLaws_of_key _ pairNumber
  doubleEqual _ _ _ _ h := h

/-- A launch state with a program of one instruction. -/
def oneInstr (i : Instr) : State := { State.reset with prog := [i] }

theorem oneInstr_inv {i : Instr} (h : i.wellFormed 5 = true) : (oneInstr i).Inv 5 := by
  constructor <;> simp [oneInstr, State.reset, h]

/-- `ENC_REF` meets what the spec asks of the open encoding parameters. -/
theorem encRef_valid : encRef.Valid where
  opFits m := by cases m <;> decide
  opInjective m m' := by cases m <;> cases m' <;> decide
  fieldsFit m := by cases m <;> decide

/-- So does the other instance. -/
theorem otherEncoding_valid : otherEncoding.Valid where
  opFits m := by cases m <;> decide
  opInjective m m' := by cases m <;> cases m' <;> decide
  fieldsFit m := by cases m <;> decide

theorem witness_DecodeOfEncode :
    encRef.Valid ∧ (Instr.cgexk 31 31 0xFFFFFF).wellFormed encRef.wR = true ∧
    otherEncoding.Valid ∧ (Instr.cba 0 0 7).wellFormed otherEncoding.wR = true :=
  ⟨encRef_valid, by decide, otherEncoding_valid, by decide⟩

theorem witness_EncodeOfDecode :
    encRef.Valid ∧ decode encRef (bitsOf 24 0x0AFFFF ++ [true]) = .instr (.cbmx 31 31 31) [true] :=
  ⟨encRef_valid, by decide⟩

theorem witness_EncodedWordFormula :
    encRef.Valid ∧ (0x015, Instr.cbmx) ∈ formatIRows ∧ (0x00F, Instr.cgexk) ∈ formatIIRows ∧ 31 < 32 :=
  ⟨encRef_valid, by simp [formatIRows], by simp [formatIIRows], by decide⟩

theorem witness_WordMatchesItsRow :
    (0x015, Instr.cbmx) ∈ formatIRows ∧ 0xFFFFFF < 2 ^ 24 ∧ (0x00F, Instr.cgexk) ∈ formatIIRows ∧
    0xFFFFFFFFFFFF < 2 ^ 48 := by
  simp [formatIRows, formatIIRows]

/-- Each clause, at the boundaries of its range: `op` values that no instruction has in either instance, a
list one bit too short for `op`, `op` 15 and 17 with the pad bits 1 and 31, words one bit too short. -/
theorem witness_UndefinedWordsRefused :
    (0 < 2 ^ encRef.wOp ∧ ∀ m, encRef.opMap m ≠ 0) ∧ (63 < 2 ^ otherEncoding.wOp ∧ ∀ m, otherEncoding.opMap m ≠ 63) ∧
    (bitsOf 8 0).length < encRef.wOp ∧ 22 < 2 ^ 9 ∧ 21 < 22 ∧
    0x078001000000 < 2 ^ 48 ∧ 15 ≤ 0x078001000000 / 2 ^ 39 ∧ 0x078001000000 / 2 ^ 24 % 32 = 1 ∧
    0x08FFFF000000 < 2 ^ 48 ∧ 0x08FFFF000000 / 2 ^ 39 ≤ 17 ∧ 0x08FFFF000000 / 2 ^ 24 % 32 = 31 ∧
    (bitsOf 38 0).length < (if 15 ≤ 15 ∧ 15 ≤ 17 then 39 else 15) ∧
    (bitsOf 14 0).length < (if 15 ≤ 21 ∧ 21 ≤ 17 then 39 else 15) := by
  refine ⟨⟨by decide, fun m => ?_⟩, ⟨by decide, fun m => ?_⟩, by decide, by decide, by decide, by decide, by decide,
    by decide, by decide, by decide, by decide, by decide, by decide⟩ <;> cases m <;> decide

theorem witness_ProgramImageDecodes :
    encRef.Valid ∧ ∀ i ∈ [Instr.cgexk 3 1 10, .cgex 4 1 1], i.wellFormed encRef.wR = true :=
  ⟨encRef_valid, by decide⟩

theorem witness_StepRunsInstructionAtPc :
    (oneInstr (.cgex 4 1 1)).fault = none ∧ (oneInstr (.cgex 4 1 1)).prog[(oneInstr (.cgex 4 1 1)).pc]? = some (.cgex 4 1 1) :=
  ⟨rfl, rfl⟩

theorem witness_PlacedWordRuns : decodeTableWord 24 0x061021 = some (.cgex 4 1 1) := by decide

/-- Each clause: a fault recorded; no fault, with `pc` inside the program list, at its end and beyond it. -/
theorem witness_NoStepWhenFaultedOrOver :
    (State.oddRegister State.reset).fault = some { raised := { uo := false, cc := false, rs := true }, pc := 0 } ∧
    (oneInstr (.cgex 4 1 1)).fault = none ∧ State.reset.fault = none ∧ State.reset.pc = State.reset.prog.length ∧
    { State.reset with pc := 1 }.fault = none ∧ State.reset.prog.length < { State.reset with pc := 1 }.pc := by decide

theorem witness_ResetMeetsInv : 5 ≤ encRef.wR := by decide

theorem witness_LaunchMeetsInv :
    2 ≤ [0#48, 1#48].length ∧ [0#48, 1#48].length % 2 = 0 ∧ (List.replicate 32 0#48).length ≤ 2 ^ 5 ∧
    1 ≤ [0#24].length ∧ (List.replicate 32 0#24).length ≤ 2 ^ 5 ∧
    ∀ i ∈ [Instr.cgex 4 1 1], i.wellFormed 5 = true := by decide

theorem witness_SpecialRegisterPacking : 0 < 24 ∧ 23 < 24 := by decide

/-- The operands of the single precision, integer and `A` byte compares: CgenResult, CeqnResult, CmgenResult,
CmeqnResult, CgeiResult, CeqiResult, CugeiResult, CbaResult, CbmaResult. -/
theorem witness_two_arith_registers :
    State.reset.a[0]? = some 0#48 ∧ State.reset.a[31]? = some 0#48 := by decide

/-- The operands of the index compares: CgexResult, CeqxResult, CugexResult, CgexkResult, CeqxkResult,
CugexkResult, CbxResult, CbmxResult. -/
theorem witness_two_index_registers :
    State.reset.x[0]? = some 0#24 ∧ State.reset.x[31]? = some 0#24 := by decide

/-- The operands of CgedResult, CeqdResult, CmgedResult and CmeqdResult, `j` and `k` even, and odd ones. -/
theorem witness_double_operands :
    0 % 2 = 0 ∧ 30 % 2 = 0 ∧ State.reset.a[0]? = some (0#48, 0#48).1 ∧ State.reset.a[0 + 1]? = some (0#48, 0#48).2 ∧
    State.reset.a[30]? = some (0#48, 0#48).1 ∧ State.reset.a[30 + 1]? = some (0#48, 0#48).2 ∧
    (31 % 2 = 1 ∨ 30 % 2 = 1) := by decide

/-- Both clauses: `u` with a normalized operand. -/
theorem witness_OperandUGivesFalse :
    (small 0x800000000000 2 0 0).a[1]? = some 0x800000000000#48 ∧ (small 0x800000000000 2 0 0).a[2]? = some 2#48 ∧
    IsUSingle 0x800000000000#48 ∧ (testFP.unnormS 0x800000000000#48 = true → IsUSingle 0x800000000000#48) ∧
    (testFP.unnormS 2#48 = true → IsUSingle 2#48) ∧
    (small 0 0x800000000000 0 0).a[2]? = some (0x800000000000#48, 0#48).1 ∧
    (small 0 0x800000000000 0 0).a[2 + 1]? = some (0x800000000000#48, 0#48).2 ∧
    (small 0 0x800000000000 0 0).a[0]? = some (0#48, 0#48).1 ∧ (small 0 0x800000000000 0 0).a[0 + 1]? = some (0#48, 0#48).2 ∧
    IsUDouble testFP (0x800000000000#48, 0#48) ∧
    (testFP.unnormD (0x800000000000#48, 0#48) = true → IsUDouble testFP (0x800000000000#48, 0#48)) ∧
    (testFP.unnormD (0#48, 0#48) = true → IsUDouble testFP (0#48, 0#48)) := by
  refine ⟨rfl, rfl, rfl, fun _ => rfl, ?_, rfl, rfl, rfl, rfl, ⟨rfl, Or.inl rfl⟩, fun _ => ⟨rfl, Or.inl rfl⟩, ?_⟩ <;>
    simp [testFP]

/-- Both clauses, with `i = 24` and the policy `fault`. -/
theorem witness_UnnormalizedOperandDraws :
    (small 3 2 0 0).a[1]? = some 3#48 ∧ (small 3 2 0 0).a[2]? = some 2#48 ∧
    (testFP.unnormS 3#48 = true ∧ ¬ IsUSingle 3#48) ∧ (small 3 2 0 0).policy = .fault ∧
    (small 3 2 0 0).a[0]? = some (0#48, 3#48).1 ∧ (small 3 2 0 0).a[0 + 1]? = some (0#48, 3#48).2 ∧
    (small 3 2 0 0).a[2]? = some (2#48, 0#48).1 ∧ (small 3 2 0 0).a[2 + 1]? = some (2#48, 0#48).2 ∧
    (testFP.unnormD (0#48, 3#48) = true ∧ ¬ IsUDouble testFP (0#48, 3#48)) := by
  refine ⟨rfl, rfl, ⟨rfl, ?_⟩, rfl, rfl, rfl, rfl, rfl, ⟨rfl, ?_⟩⟩ <;> simp [IsUSingle, IsUDouble]

/-- Both clauses; the laws are met by `testFP` (`testFP_lawful`). -/
theorem witness_NormalOperandEqualsItself :
    testFP.Lawful ∧ (small 2 4 0 0).a[1]? = some 2#48 ∧ NormalSingle testFP 2#48 ∧
    (small 2 4 0 0).a[0]? = some (0#48, 2#48).1 ∧ (small 2 4 0 0).a[0 + 1]? = some (0#48, 2#48).2 ∧
    NormalDouble testFP (0#48, 2#48) := by
  refine ⟨testFP_lawful, rfl, ⟨rfl, ?_⟩, rfl, rfl, ⟨rfl, ?_⟩⟩ <;> simp [IsUSingle, IsUDouble]

/-- An operand `u` leaves 0 both ways, and the conclusion holds of it. -/
theorem witness_BothOrdersFalseShowsSpecialOperand :
    ∃ t t', fcmpS testFP testFP.geS 0 1 2 (small 0x800000000000 2 0 0) = .next t ∧
      fcmpS testFP testFP.geS 23 2 1 (small 0x800000000000 2 0 0) = .next t' ∧
      t.c[(0 : BitVec 5).toNat]? = some false ∧ t'.c[(23 : BitVec 5).toNat]? = some false ∧
      testFP.Lawful ∧ testFP.geS ∈ [testFP.geS, testFP.mgeS] ∧
      (small 0x800000000000 2 0 0).a[1]? = some 0x800000000000#48 ∧ (small 0x800000000000 2 0 0).a[2]? = some 2#48 :=
  ⟨_, _, rfl, rfl, by decide, by decide, testFP_lawful, by simp, rfl, rfl⟩

/-- Both clauses, equal in the leading bits and different below them. -/
theorem witness_IgnoredBitsOfSegmentField :
    (8 : BitVec 5).toNat / 8 = (15 : BitVec 5).toNat / 8 ∧ (28 : BitVec 5).toNat / 4 = (31 : BitVec 5).toNat / 4 := by decide

theorem witness_RegisterComparedWithItself : 31 < State.reset.a.length ∧ 31 < State.reset.x.length := by decide

/-- Both clauses; the first also serves UnsignedDiffersOnLeftmostBits. -/
theorem witness_SixRelations :
    (23 : BitVec 5).toNat < 24 ∧ (small 7 9 0 0).a[1]? = some 7#48 ∧ (small 7 9 0 0).a[2]? = some 9#48 ∧
    (small 0 0 7 9).x[1]? = some 7#24 ∧ (small 0 0 7 9).x[2]? = some 9#24 := by decide

/-- The least and the greatest literal of the range. -/
theorem witness_RangeCheckByUnsignedConstant :
    (23 : BitVec 5).toNat < 24 ∧ (small 0 0 7 9).x[1]? = some 7#24 ∧ 1 ≤ (1#24).toNat ∧ (1#24).toNat ≤ 0x800000 ∧
    1 ≤ (0x800000#24).toNat ∧ (0x800000#24).toNat ≤ 0x800000 := by decide

theorem witness_TestRegisterHighBitsNotRead :
    1 ≠ 2 ∧ (small 0x33 0x33 0x33 0x33).a[1]? = some 0x33#48 ∧ (0x33#48).toNat % 256 = (0xABCD33#48).toNat % 256 ∧
    (small 0x33 0x33 0x33 0x33).x[1]? = some 0x33#24 ∧ (0x33#24).toNat % 256 = (0xABCD33#24).toNat % 256 ∧
    (∃ t, exec (.cba 0 1 2) (small 0x33 0x33 0x33 0x33) = .next t) ∧
    (∃ t, exec (.cbma 0 1 2) (small 0x33 0x33 0x33 0x33) = .next t) ∧
    (∃ t, exec (.cbx 0 1 2) (small 0x33 0x33 0x33 0x33) = .next t) ∧
    (∃ t, exec (.cbmx 0 1 2) (small 0x33 0x33 0x33 0x33) = .next t) :=
  ⟨by decide, rfl, rfl, rfl, rfl, ⟨_, rfl⟩, ⟨_, rfl⟩, ⟨_, rfl⟩, ⟨_, rfl⟩⟩

/-- A single-bit compare with `i = 26` and `CBMX` with `i = 28`. -/
theorem witness_LostResultHasNoEffect :
    (¬ (Instr.cgex 26 1 2).isFloat ∧ (Instr.cgex 26 1 2).operandsExist State.reset ∧
      ∀ n, (Instr.cgex 26 1 2).designates n → 26 ≤ n) ∧
    (¬ (Instr.cbmx 28 1 2).isFloat ∧ (Instr.cbmx 28 1 2).operandsExist State.reset ∧
      ∀ n, (Instr.cbmx 28 1 2).designates n → 26 ≤ n) := by
  refine ⟨⟨id, Or.inr ⟨by decide, by decide⟩, ?_⟩, ⟨id, Or.inr ⟨by decide, by decide⟩, ?_⟩⟩
  · intro n (h : n = (26 : BitVec 5).toNat); rw [h]; decide
  · intro n (h : n / 4 = (28 : BitVec 5).toNat / 4)
    have : n / 4 = 7 := h
    omega

/-- A single-bit compare with `i = 24`, `CBMA` with `i = 31`, and a double precision compare with an odd
register number; the same instruction with another `i` field also answers a next state. -/
theorem witness_LostResult :
    ((Instr.cgei 24 1 2).operandsExist State.reset ∧ (∀ n, (Instr.cgei 24 1 2).designates n → 24 ≤ n) ∧
      ∃ t', exec ((Instr.cgei 24 1 2).withBit 23) State.reset = .next t') ∧
    ((Instr.cbma 31 1 2).operandsExist State.reset ∧ (∀ n, (Instr.cbma 31 1 2).designates n → 24 ≤ n)) ∧
    ((Instr.cged 25 1 2).operandsExist State.reset ∧ (∀ n, (Instr.cged 25 1 2).designates n → 24 ≤ n)) := by
  refine ⟨⟨Or.inr ⟨by decide, by decide⟩, ?_, _, rfl⟩, ⟨Or.inr ⟨by decide, by decide⟩, ?_⟩,
    ⟨Or.inl ⟨1, 2, rfl, Or.inl rfl⟩, ?_⟩⟩
  · intro n (h : n = (24 : BitVec 5).toNat); rw [h]; decide
  · intro n (h : n / 8 = (31 : BitVec 5).toNat / 8 ∧ n % 8 ≠ 7)
    have : n / 8 = 3 := h.1
    omega
  · intro n (h : n = (25 : BitVec 5).toNat); rw [h]; decide

/-- Both ways to have every operand: the registers are there, or an odd register number. -/
theorem witness_EveryInstructionCompletes :
    (Instr.cged 0 30 0).operandsExist State.reset ∧ (Instr.cmeqd 0 3 40).operandsExist State.reset :=
  ⟨Or.inr ⟨by decide, by decide⟩, Or.inl ⟨3, 40, rfl, Or.inl rfl⟩⟩

/-- A number just past the end of each file. -/
theorem witness_MissingRegisterIsRefused :
    ¬ (Instr.cgei 0 0 32).operandsExist State.reset ∧ ¬ (Instr.ceqxk 0 32 0).operandsExist State.reset := by
  constructor <;> rintro (⟨j, k, h, -⟩ | ⟨h1, h2⟩)
  · exact absurd h (by simp [Instr.doubleFields])
  · exact absurd (h1 32 (by simp [Instr.readsA])) (by decide)
  · exact absurd h (by simp [Instr.doubleFields])
  · exact absurd (h2 32 (by simp [Instr.readsX])) (by decide)

/-- InstructionFrame, SetCIsTheOneWay, WholeEffectOfACompare, ConditionAndExceptionBitsNotRead. -/
theorem witness_InstructionFrame :
    (∃ t, exec (.cgex 24 1 2) State.reset = .next t) ∧ ¬ (Instr.cgex 24 1 2).oddDouble :=
  ⟨⟨_, rfl⟩, by rintro ⟨j, k, h, -⟩; exact absurd h (by simp [Instr.doubleFields])⟩

/-- StepLeavesRegistersAndProgram, SourcesOfExceptionBits, StepKeepsInv: a step from a state that meets the
invariant, one that raises `CC` and one that raises `RS`. -/
theorem witness_StepKeepsInv :
    ((oneInstr (.ceqx 25 0 0)).Inv 5 ∧ ∃ t, step (oneInstr (.ceqx 25 0 0)) = .next t) ∧
    ((oneInstr (.cged 0 1 0)).Inv 5 ∧ ∃ t, step (oneInstr (.cged 0 1 0)) = .next t) :=
  ⟨⟨oneInstr_inv (by decide), _, rfl⟩, ⟨oneInstr_inv (by decide), _, rfl⟩⟩

/-- NoStuckState, RunEndsOrFaults. -/
theorem witness_NoStuckState :
    (oneInstr (.cba 0 31 31)).Inv 5 ∧ (oneInstr (.cba 0 31 31)).a.length = 2 ^ 5 ∧
    (oneInstr (.cba 0 31 31)).x.length = 2 ^ 5 ∧
    (oneInstr (.cba 0 31 31)).fault = none ∧ (oneInstr (.cba 0 31 31)).pc < (oneInstr (.cba 0 31 31)).prog.length :=
  ⟨oneInstr_inv (by decide), by decide, by decide, rfl, by decide⟩

/-- Register files that agree on the registers read and differ elsewhere. -/
theorem witness_OnlyListedRegistersRead :
    (∀ n ∈ (Instr.cgei 0 1 2).readsA, ([9, 7, 8] : List ArithWord)[n]? = (small 7 8 0 0).a[n]?) ∧
    (∀ n ∈ (Instr.cgei 0 1 2).readsX, ([] : List IndexWord)[n]? = (small 7 8 0 0).x[n]?) ∧
    ∃ t, exec (.cgei 0 1 2) (small 7 8 0 0) = .next t :=
  ⟨by decide, by decide, _, rfl⟩

end Sys2Proof.Tests
end

section
/-! The invariant holds where a run begins (00_scope.md rule R3, 70_reset_and_hazards.md rules R150, R152). -/

namespace Sys2Proof.Machine

/-- Register counts that meet R3 and a well-formed program are all that a launch state needs: its `pc` is 0,
and it has no recorded fault to name. -/
theorem State.launch_inv {wR : Nat} {a : List ArithWord} {x : List IndexWord} {prog : List Instr}
    (c : Vector Bool 24) (exc : ExcBits) (policy : ExcPolicy)
    (ha : 2 ≤ a.length ∧ a.length ≤ 2 ^ wR ∧ a.length % 2 = 0) (hx : 1 ≤ x.length ∧ x.length ≤ 2 ^ wR)
    (hprog : ∀ i ∈ prog, i.wellFormed wR = true) :
    (State.launch a x c exc prog policy).Inv wR where
  arithCount := ha
  indexCount := hx
  progWellFormed := hprog
  pcInProgram := Nat.zero_le _
  faultNamed _ h := nomatch h

/-- Settles O12: the state after reset is a launch state with an empty program, and a width of 5 or more
can name its 32 registers. -/
theorem resetMeetsInv : Obligations.ResetMeetsInv := by
  intro wR hw
  have names32 : 32 ≤ 2 ^ wR := Nat.pow_le_pow_right (n := 2) (by decide) hw
  rw [State.reset_eq_launch]
  refine State.launch_inv _ _ _ ?arithCount ?indexCount ?progWellFormed
  case arithCount => simpa using names32
  case indexCount => simp only [List.length_replicate]; omega
  case progWellFormed => exact List.forall_mem_nil _

end Sys2Proof.Machine
end

section
/-! A step is the meaning of the instruction at `pc` (10_state.md rule R22), also of one that a table word has
just placed there (log 1). -/

namespace Sys2Proof.Machine

/-- With no fault recorded a step is the meaning of the instruction at `pc` (R22). -/
theorem step_eq_exec {s : State} {i : Instr} (hf : s.fault = none) (hi : s.prog[s.pc]? = some i) :
    step s = exec i s := by
  simp only [step, hf, State.fetch, hi]

/-- A word that spells an instruction puts it at `pc`, clears the fault record and does nothing else. -/
theorem State.withFetchWord_eq {nbits w : Nat} {i : Instr} (s : State) (h : decodeTableWord nbits w = some i) :
    s.withFetchWord nbits w = { s with prog := putAt i s.pc s.prog, fault := none } := by
  simp only [State.withFetchWord, State.placeTableWord, h]

/-- Settles O8, by the equation of a step that finds an instruction. -/
theorem stepRunsInstructionAtPc : Obligations.StepRunsInstructionAtPc :=
  fun _ _ => step_eq_exec

/-- Settles O9: the placed instruction is the one that the next step finds at `pc`. -/
theorem placedWordRuns : Obligations.PlacedWordRuns := by
  intro s nbits w i h
  rw [s.withFetchWord_eq h]
  exact ⟨step_eq_exec rfl (putAt_self i s.pc s.prog), rfl, fun _ => putAt_other i s.prog⟩

end Sys2Proof.Machine
end

section
/-! What the end of an instruction does to each component of the state, as one equation, and what a list of
`SetC` calls does to each condition bit (40_compare_common.md rules R60, R68; 60_exceptions.md rule R131). -/

namespace Sys2Proof.Machine

/-- An instruction that raised `raised` stops the run: an exception under the policy `fault` (R131). -/
def State.stopsOn (s : State) (raised : ExcBits) : Bool := raised.any && s.policy == .fault

/-- The end of an instruction, component by component (R68, R130, R131). -/
theorem State.retire_eq (s : State) (raised : ExcBits) :
    s.retire raised = { s with
      exc := s.exc.union raised
      pc := if s.stopsOn raised then s.pc else s.pc + 1
      fault := if s.stopsOn raised then some { raised := raised, pc := s.pc } else s.fault } := by
  by_cases h : raised.any = true
  · cases hp : s.policy <;>
      simp [State.retire, State.takeException, State.stopsOn, State.setExc, State.recordFault, State.advance, h, hp]
  · obtain rfl := (ExcBits.any_eq_false raised).1 (Bool.eq_false_iff.2 h)
    rw [State.retire_none]
    simp [State.advance, State.stopsOn, ExcBits.union, ExcBits.none, ExcBits.any]

/-- `SetC` calls write condition bits alone. -/
theorem State.setCs_eq (s : State) (ws : List (Nat × Bool)) : s.setCs ws = { s with c := (s.setCs ws).c } := by
  induction ws generalizing s with
  | nil => rfl
  | cons w ws ih =>
    rw [State.setCs_cons, ih]
    simp

/-- What `SetC` calls leave in the condition bits depends on nothing but the condition bits. -/
theorem State.setCs_c_congr {s s' : State} (h : s'.c = s.c) (ws : List (Nat × Bool)) :
    (s'.setCs ws).c = (s.setCs ws).c := by
  induction ws generalizing s s' with
  | nil => exact h
  | cons w ws ih =>
    rw [State.setCs_cons, State.setCs_cons]
    refine ih ?_
    unfold State.setC
    split <;> simp [h]

/-- A condition bit that no `SetC` call names keeps its value (R60). -/
theorem State.setCs_c_of_not_mem {n : Nat} {ws : List (Nat × Bool)} (s : State) (h : n ∉ ws.map Prod.fst) :
    (s.setCs ws).c[n]? = s.c[n]? := by
  induction ws generalizing s with
  | nil => rfl
  | cons w ws ih =>
    obtain ⟨hw, hws⟩ : n ≠ w.1 ∧ n ∉ ws.map Prod.fst := by simpa using h
    rw [State.setCs_cons, ih _ hws, State.setC_c, if_neg fun h => hw h.1]

/-- A condition bit that a `SetC` call names has a value that no state before the calls decides (R60). -/
theorem State.setCs_c_of_mem {n : Nat} {ws : List (Nat × Bool)} (s s' : State) (hn : n < 24)
    (h : n ∈ ws.map Prod.fst) : (s.setCs ws).c[n]? = (s'.setCs ws).c[n]? := by
  induction ws generalizing s s' with
  | nil => simp at h
  | cons w ws ih =>
    by_cases hws : n ∈ ws.map Prod.fst
    · exact ih _ _ hws
    · have hw : n = w.1 := by simpa [hws] using h
      have hnow : ∀ r : State, (r.setCs (w :: ws)).c[n]? = some w.2 := fun r => by
        rw [State.setCs_cons, State.setCs_c_of_not_mem _ hws, State.setC_c, if_pos ⟨hw, hw ▸ hn⟩]
      rw [hnow, hnow]

/-- The commit of an instruction, component by component (R68). -/
theorem State.commit_eq (s : State) (ws : List (Nat × Bool)) (uo : Bool) :
    let raised : ExcBits := { uo := uo, cc := conditionChecks ws, rs := false }
    s.commit ws uo = { s with
      c := (s.setCs ws).c
      exc := s.exc.union raised
      pc := if s.stopsOn raised then s.pc else s.pc + 1
      fault := if s.stopsOn raised then some { raised := raised, pc := s.pc } else s.fault } := by
  simp only [State.commit, State.retire_eq]
  rw [State.setCs_eq]
  rfl

/-- Only a call that names bit 24 or bit 25 raises `CC` (R62). -/
theorem mem_of_conditionChecks {ws : List (Nat × Bool)} (h : conditionChecks ws = true) :
    24 ∈ ws.map Prod.fst ∨ 25 ∈ ws.map Prod.fst := by
  obtain ⟨⟨n, v⟩, hw, hcheck⟩ := List.any_eq_true.1 h
  have hmem : n ∈ ws.map Prod.fst := List.mem_map_of_mem hw
  have hbit : n = 24 ∨ n = 25 := by
    simp only [conditionCheck, Bool.or_eq_true, Bool.and_eq_true, beq_iff_eq] at hcheck
    exact hcheck.imp And.left And.left
  rcases hbit with rfl | rfl
  · exact .inl hmem
  · exact .inr hmem

/-- The lanes of a multiple byte compare name the bit numbers that follow one another (R121, R123). -/
theorem laneWrites_numbers (n : Nat) (m : List Bool) : (laneWrites n m).map Prod.fst = List.range' n m.length := by
  induction m generalizing n with
  | nil => rfl
  | cons b m ih => simp [laneWrites, ih, List.range'_succ]

/-- A multiple byte compare names the base of its segment and one bit number for each lane (R121, R123). -/
theorem mem_multipleWrites {n base : Nat} {m : List Bool} :
    n ∈ (multipleWrites base m).map Prod.fst ↔ base ≤ n ∧ n ≤ base + m.length := by
  simp only [multipleWrites, List.map_cons, laneWrites_numbers, List.mem_cons, List.mem_range'_1]
  omega

end Sys2Proof.Machine
end

section
/-! Every instruction reads its operands and then does one of two things to the state: it stops at an odd register
number, or it commits a list of `SetC` calls. What it does is an `Effect`, which the operands decide alone
(10_state.md rule R23): the one fact behind the frame of an instruction and what it does not read. -/

namespace Sys2Proof.Machine

/-- What an instruction does once its operands are read. -/
inductive Effect where
  /-- `RS` for an odd register number (R67). -/
  | odd
  /-- `SetC` calls and `UO` (R68), after a draw where `drawn` says so (R66). -/
  | commit (drawn : Bool) (writes : List (Nat × Bool)) (uo : Bool)

/-- The state that an effect leaves. -/
def Effect.apply : Effect → State → State
  | .odd, s => s.oddRegister
  | .commit drawn writes uo, s => { s with draws := s.draws + drawn.toNat }.commit writes uo

/-- An instruction may have this effect: `RS` alone for an odd double precision compare (R67); otherwise `SetC` for
exactly the designated bit numbers (R17, R45), and a draw or `UO` only if it is a floating-point compare (R66). -/
def Effect.Fits (i : Instr) : Effect → Prop
  | .odd => i.oddDouble
  | .commit drawn writes uo => ¬ i.oddDouble ∧ (∀ n, n ∈ writes.map Prod.fst ↔ i.designates n) ∧
      (drawn = true ∨ uo = true → i.isFloat)

/-- Two states agree on what the instruction may read: the registers of the access table (R23), and the count that
its draw uses (log 6). -/
structure SameOperands (i : Instr) (s s' : State) : Prop where
  a : ∀ n ∈ i.readsA, s'.a[n]? = s.a[n]?
  x : ∀ n ∈ i.readsX, s'.x[n]? = s.x[n]?
  draws : s'.draws = s.draws

/-- Where the instruction completes it has an effect that fits it, and has that same effect on every state with the
same operands. -/
def ActsByOperands (i : Instr) : Prop :=
  ∀ s t : State, exec i s = .next t →
    ∃ e : Effect, e.Fits i ∧ ∀ s' : State, SameOperands i s s' → exec i s' = .next (e.apply s')

/-- The effect of a floating-point compare whose draw would be `d` (R92, R93). -/
def floatEffect (b : BitVec 5) (n1 u1 n2 u2 r d : Bool) : Effect :=
  .commit (drawsResult n1 u1 n2 u2)
    (singleWrite b (if drawsResult n1 u1 n2 u2 then d else if u1 || u2 then false else r)) (n1 || n2)

/-- The end of a floating-point compare is its effect. -/
theorem State.setFloat_eq (s : State) (b : BitVec 5) (n1 u1 n2 u2 r : Bool) :
    s.setFloat b n1 u1 n2 u2 r = .next ((floatEffect b n1 u1 n2 u2 r (Config.draw s.draws)).apply s) := by
  rcases floatResult_cases s n1 u1 n2 u2 r with ⟨hd, h⟩ | ⟨hd, hu, h⟩ | ⟨hd, hu, h⟩
  · simp [State.setFloat, floatEffect, Effect.apply, State.draw, h, hd]
  · simp [State.setFloat, floatEffect, Effect.apply, h, hd, hu]
  · simp [State.setFloat, floatEffect, Effect.apply, h, hd, hu]

/-! ## Which effects fit -/

section
variable {i : Instr} {b : BitVec 5} {j k : Nat}

/-- Only a double precision compare can be odd. -/
theorem not_oddDouble_of_no_fields (h : i.doubleFields = none) : ¬ i.oddDouble := by
  simp [Instr.oddDouble, h]

/-- A double precision compare is odd exactly when `CheckEven` finds an odd field (R67). -/
theorem oddDouble_iff_oddField (h : i.doubleFields = some (j, k)) : i.oddDouble ↔ oddField j k = true := by
  rw [oddField_eq_true, Instr.oddDouble, h]
  simp

/-- The one `SetC` call of a single-bit compare fits an instruction that designates its bit alone (R69). -/
theorem fits_single {r : Bool} (hodd : ¬ i.oddDouble) (hbit : ∀ n, i.designates n ↔ n = b.toNat) :
    (Effect.commit false (singleWrite b r) false).Fits i :=
  ⟨hodd, fun n => by simp [singleWrite, hbit], by simp⟩

/-- The effect of a floating-point compare fits an instruction that is one and designates its bit alone. -/
theorem fits_float {n1 u1 n2 u2 r d : Bool} (hodd : ¬ i.oddDouble) (hbit : ∀ n, i.designates n ↔ n = b.toNat)
    (hfloat : i.isFloat) : (floatEffect b n1 u1 n2 u2 r d).Fits i :=
  ⟨hodd, fun n => by simp [singleWrite, hbit], fun _ => hfloat⟩

/-- The calls of a multiple byte compare of `A` registers fit `CBMA` (R121). -/
theorem fits_cbma (t : Byte) (w : ArithWord) :
    (Effect.commit false (multipleWrites (baseOf8 b) (matchA t w)) false).Fits (.cbma b j k) := by
  refine ⟨not_oddDouble_of_no_fields rfl, fun n => ?_, by simp⟩
  simp only [mem_multipleWrites, baseOf8_eq, matchA, List.length_cons, List.length_nil, Instr.designates]
  omega

/-- The calls of a multiple byte compare of `X` registers fit `CBMX` (R123). -/
theorem fits_cbmx (t : Byte) (w : IndexWord) :
    (Effect.commit false (multipleWrites (baseOf4 b) (matchX t w)) false).Fits (.cbmx b j k) := by
  refine ⟨not_oddDouble_of_no_fields rfl, fun n => ?_, by simp⟩
  simp only [mem_multipleWrites, baseOf4_eq, matchX, List.length_cons, List.length_nil, Instr.designates]
  omega

/-! ## One lemma for each form of operands -/

/-- An instruction on `A[j]` and `A[k]` acts by them. -/
theorem actsByOperands_arith (g : Nat → ArithWord → ArithWord → Effect)
    (hexec : ∀ s, exec i s = withArith s j k fun v w => .next ((g s.draws v w).apply s))
    (hreads : i.readsA = [j, k]) (hfits : ∀ d v w, (g d v w).Fits i) : ActsByOperands i := by
  intro s t h
  rw [hexec, withArith_next] at h
  obtain ⟨v, w, hv, hw, -⟩ := h
  refine ⟨g s.draws v w, hfits _ _ _, fun s' same => ?_⟩
  have hv' := (same.a j (by simp [hreads])).trans hv
  have hw' := (same.a k (by simp [hreads])).trans hw
  rw [hexec, withArith_of_some hv' hw', same.draws]

/-- An instruction on `X[j]` and `X[k]` acts by them. -/
theorem actsByOperands_index (g : IndexWord → IndexWord → Effect)
    (hexec : ∀ s, exec i s = withIndex s j k fun v w => .next ((g v w).apply s))
    (hreads : i.readsX = [j, k]) (hfits : ∀ v w, (g v w).Fits i) : ActsByOperands i := by
  intro s t h
  rw [hexec, withIndex_next] at h
  obtain ⟨v, w, hv, hw, -⟩ := h
  refine ⟨g v w, hfits _ _, fun s' same => ?_⟩
  have hv' := (same.x j (by simp [hreads])).trans hv
  have hw' := (same.x k (by simp [hreads])).trans hw
  rw [hexec, withIndex_of_some hv' hw']

/-- A single-bit compare of `A[j]` and `A[k]` acts by them (R69). -/
theorem actsByOperands_arithBit {r : ArithWord → ArithWord → Bool}
    (hexec : ∀ s, exec i s = withArith s j k fun v w => s.setSingle b (r v w)) (hreads : i.readsA = [j, k])
    (hodd : i.doubleFields = none) (hbit : ∀ n, i.designates n ↔ n = b.toNat) : ActsByOperands i :=
  actsByOperands_arith (fun _ v w => .commit false (singleWrite b (r v w)) false) hexec hreads
    fun _ _ _ => fits_single (not_oddDouble_of_no_fields hodd) hbit

/-- A single-bit compare of `X[j]` and `X[k]` acts by them (R69). -/
theorem actsByOperands_indexBit {r : IndexWord → IndexWord → Bool}
    (hexec : ∀ s, exec i s = withIndex s j k fun v w => s.setSingle b (r v w)) (hreads : i.readsX = [j, k])
    (hodd : i.doubleFields = none) (hbit : ∀ n, i.designates n ↔ n = b.toNat) : ActsByOperands i :=
  actsByOperands_index (fun v w => .commit false (singleWrite b (r v w)) false) hexec hreads
    fun _ _ => fits_single (not_oddDouble_of_no_fields hodd) hbit

/-- A single-bit compare of `X[j]` and a literal acts by the register (R69). -/
theorem actsByOperands_literalBit {r : IndexWord → Bool}
    (hexec : ∀ s, exec i s = withX s j fun v => s.setSingle b (r v)) (hreads : i.readsX = [j])
    (hodd : i.doubleFields = none) (hbit : ∀ n, i.designates n ↔ n = b.toNat) : ActsByOperands i := by
  intro s t h
  rw [hexec, withX_next] at h
  obtain ⟨v, hv, -⟩ := h
  refine ⟨.commit false (singleWrite b (r v)) false, fits_single (not_oddDouble_of_no_fields hodd) hbit,
    fun s' same => ?_⟩
  have hv' := (same.x j (by simp [hreads])).trans hv
  rw [hexec, withX_of_some hv']
  rfl

/-- A single precision compare acts by `A[j]` and `A[k]` (R92). -/
theorem actsByOperands_single {fp : FP} {rel : ArithWord → ArithWord → Bool}
    (hexec : ∀ s, exec i s = fcmpS fp rel b j k s) (hreads : i.readsA = [j, k])
    (hodd : i.doubleFields = none) (hbit : ∀ n, i.designates n ↔ n = b.toNat) (hfloat : i.isFloat) :
    ActsByOperands i :=
  actsByOperands_arith
    (fun d v w => floatEffect b (fp.unnormS v) (isU v) (fp.unnormS w) (isU w) (rel v w) (Config.draw d))
    (fun s => by simp only [hexec, fcmpS, State.setFloat_eq]) hreads
    fun _ _ _ => fits_float (not_oddDouble_of_no_fields hodd) hbit hfloat

/-- A double precision compare acts by its fields alone where one is odd, and by its two pairs otherwise (R93). -/
theorem actsByOperands_double {fp : FP} {rel : ArithPair → ArithPair → Bool}
    (hexec : ∀ s, exec i s = fcmpD fp rel b j k s) (hreads : i.readsA = [j, j + 1, k, k + 1])
    (hfields : i.doubleFields = some (j, k)) (hbit : ∀ n, i.designates n ↔ n = b.toNat) (hfloat : i.isFloat) :
    ActsByOperands i := by
  intro s t h
  have hiff := oddDouble_iff_oddField hfields
  by_cases hodd : oddField j k = true
  · exact ⟨.odd, hiff.2 hodd, fun s' _ => by rw [hexec, fcmpD, if_pos hodd]; rfl⟩
  · rw [hexec, fcmpD, if_neg hodd, withPairs_next] at h
    obtain ⟨p, q, h1, h2, h3, h4, -⟩ := h
    refine ⟨floatEffect b (fp.unnormD p) (isUD fp p) (fp.unnormD q) (isUD fp q) (rel p q) (Config.draw s.draws),
      fits_float (hiff.not.2 hodd) hbit hfloat, fun s' same => ?_⟩
    have reads (n : Nat) (hn : n ∈ [j, j + 1, k, k + 1]) : s'.a[n]? = s.a[n]? := same.a n (hreads ▸ hn)
    rw [hexec, fcmpD, if_neg hodd, withPairs_of_some ((reads j (by simp)).trans h1)
      ((reads (j + 1) (by simp)).trans h2) ((reads k (by simp)).trans h3) ((reads (k + 1) (by simp)).trans h4),
      State.setFloat_eq, same.draws]

end

/-- Every instruction acts by its operands (R23). -/
theorem actsByOperands (i : Instr) : ActsByOperands i := by
  cases i with
  | cgen | ceqn | cmgen | cmeqn =>
    exact actsByOperands_single (fun _ => rfl) rfl rfl (fun _ => Iff.rfl) trivial
  | cged | ceqd | cmged | cmeqd =>
    exact actsByOperands_double (fun _ => rfl) rfl rfl (fun _ => Iff.rfl) trivial
  | cgei | ceqi | cugei | cba =>
    exact actsByOperands_arithBit (fun _ => rfl) rfl rfl fun _ => Iff.rfl
  | cbma b =>
    exact actsByOperands_arith (fun _ v w => .commit false (multipleWrites (baseOf8 b) (matchA (testA v) w)) false)
      (fun _ => rfl) rfl fun _ _ _ => fits_cbma _ _
  | cgex | ceqx | cugex | cbx =>
    exact actsByOperands_indexBit (fun _ => rfl) rfl rfl fun _ => Iff.rfl
  | cgexk | ceqxk | cugexk =>
    exact actsByOperands_literalBit (fun _ => rfl) rfl rfl fun _ => Iff.rfl
  | cbmx b =>
    exact actsByOperands_index (fun v w => .commit false (multipleWrites (baseOf4 b) (matchX (testX v) w)) false)
      (fun _ => rfl) rfl fun _ _ => fits_cbmx _ _

end Sys2Proof.Machine
end

section
/-! What an effect leaves unchanged and what it does not look at, and from that the frame of every instruction (R17,
R59, R132) and what no instruction reads (R18, R23). -/

namespace Sys2Proof.Machine

/-- The draw count does not matter to what the end of an instruction does. -/
theorem Retires.of_draws {raised : ExcBits} {s t : State} {d : Nat}
    (h : Retires raised { s with draws := d } t) : Retires raised s t :=
  ⟨h.a, h.x, h.prog, h.policy, h.uo, h.cc, h.rs, h.stops, h.goesOn⟩

/-- An instruction that completes has an effect that fits it, on this state and on every state with the same
operands. -/
theorem exec_effect {i : Instr} {s t : State} (h : exec i s = .next t) :
    ∃ e : Effect, e.Fits i ∧ t = e.apply s ∧ ∀ s' : State, SameOperands i s s' → exec i s' = .next (e.apply s') := by
  obtain ⟨e, hfits, hacts⟩ := actsByOperands i s t h
  have hself := hacts s ⟨fun _ _ => rfl, fun _ _ => rfl, rfl⟩
  exact ⟨e, hfits, Host.Outcome.next.inj (h.symm.trans hself), hacts⟩

/-- The exceptions that an effect raises. -/
def Effect.raised : Effect → ExcBits
  | .odd => { uo := false, cc := false, rs := true }
  | .commit _ writes uo => { uo := uo, cc := conditionChecks writes, rs := false }

/-- An effect sets the exceptions that it raises and clears none (R21, R130). -/
theorem Effect.apply_exc (e : Effect) (s : State) : (e.apply s).exc = s.exc.union e.raised := by
  cases e with
  | odd => rfl
  | commit => rw [Effect.apply, State.commit_eq]; rfl

/-- An effect does the same to all but the condition and exception bits, whatever those bits are. -/
theorem Effect.apply_of_bits (e : Effect) (s : State) (c : Vector Bool 24) (exc : ExcBits) :
    let t' := e.apply { s with c := c, exc := exc }
    t' = { e.apply s with c := t'.c, exc := t'.exc } := by
  cases e with
  | odd => rfl
  | commit => simp only [Effect.apply, State.commit_eq]; rfl

/-- An effect does the same to the rest of the state, whatever the registers hold. -/
theorem Effect.apply_of_registers (e : Effect) (s : State) (a : List ArithWord) (x : List IndexWord) :
    e.apply { s with a := a, x := x } = { e.apply s with a := a, x := x } := by
  cases e with
  | odd => rfl
  | commit drawn ws uo =>
    have hc : (State.setCs { s with a := a, x := x, draws := s.draws + drawn.toNat } ws).c =
        (State.setCs { s with draws := s.draws + drawn.toNat } ws).c := State.setCs_c_congr (by rfl) ws
    simp only [Effect.apply, State.commit_eq, hc]
    rfl

/-- An effect keeps each condition bit that its instruction does not designate, or every one where it stops at an odd
register number (R17, R67). -/
theorem Effect.apply_c_of_not_designated {e : Effect} {i : Instr} (hfits : e.Fits i) {n : Nat}
    (hn : ¬ i.designates n ∨ i.oddDouble) (s : State) : (e.apply s).c[n]? = s.c[n]? := by
  cases e with
  | odd => rfl
  | commit drawn ws uo =>
    obtain ⟨hodd, hwrites, -⟩ := hfits
    have hmem : n ∉ ws.map Prod.fst := (hwrites n).not.2 (hn.resolve_right hodd)
    rw [Effect.apply, State.commit_c, State.setCs_c_of_not_mem _ hmem]

/-- The designated condition bits after an effect do not depend on the condition bits before (R18). -/
theorem Effect.apply_c_of_designated {e : Effect} {i : Instr} (hfits : e.Fits i) {n : Nat} (hn : n < 24)
    (hbit : i.designates n) (hodd : ¬ i.oddDouble) (s s' : State) : (e.apply s).c[n]? = (e.apply s').c[n]? := by
  cases e with
  | odd => exact absurd hfits hodd
  | commit drawn ws uo =>
    obtain ⟨-, hwrites, -⟩ := hfits
    rw [Effect.apply, Effect.apply, State.commit_c, State.commit_c,
      State.setCs_c_of_mem _ _ hn ((hwrites n).2 hbit)]

/-- Settles O52: the effect of the instruction fits it, and its commit ends as every one does. -/
theorem instructionFrame : Obligations.InstructionFrame := by
  intro i s t h hodd
  obtain ⟨e, hfits, rfl, -⟩ := exec_effect h
  refine ⟨fun n _ hn => Effect.apply_c_of_not_designated hfits (.inl hn) s, ?_⟩
  cases e with
  | odd => exact absurd hfits hodd
  | commit drawn ws uo =>
    obtain ⟨-, hwrites, hfloat⟩ := hfits
    refine ⟨?draws, (Effect.commit drawn ws uo).raised, rfl, fun huo => hfloat (.inr huo), fun hcc => ?check,
      Retires.of_draws (State.commit_retires _ ws uo)⟩
    case draws =>
      rw [Effect.apply, State.commit_draws]
      cases drawn with
      | false => exact .inl rfl
      | true => exact .inr ⟨hfloat (.inl rfl), rfl⟩
    case check => exact (mem_of_conditionChecks hcc).imp (hwrites 24).1 (hwrites 25).1

/-- Settles O59: the operands are the same, so the two runs have the same effect. -/
theorem conditionAndExceptionBitsNotRead : Obligations.ConditionAndExceptionBitsNotRead := by
  intro i s t c' e' h
  obtain ⟨e, hfits, rfl, hacts⟩ := exec_effect h
  refine ⟨_, hacts { s with c := c', exc := e' } ⟨fun _ _ => rfl, fun _ _ => rfl, rfl⟩, e.apply_of_bits s c' e',
    ?designated, ?others, e.raised, e.apply_exc s, e.apply_exc _⟩
  case designated => exact fun n hn hbit hodd => Effect.apply_c_of_designated hfits hn hbit hodd s _
  case others =>
    exact fun n _ hn => ⟨Effect.apply_c_of_not_designated hfits hn s, Effect.apply_c_of_not_designated hfits hn _⟩

/-- Settles O60: the operands are the same, so the effect is, and no effect looks at a register. -/
theorem onlyListedRegistersRead : Obligations.OnlyListedRegistersRead := by
  intro i s t a' x' ha hx h
  obtain ⟨e, -, rfl, hacts⟩ := exec_effect h
  rw [hacts { s with a := a', x := x' } ⟨ha, hx, rfl⟩, e.apply_of_registers]

end Sys2Proof.Machine
end

section
/-! Decoding undoes encoding: for the fields of a word, for the word at the head of a list of bits
(30_encoding.md rule R48), and for the words of a program one after another (20_memory.md rule R31, log 11). -/

namespace Sys2Proof

/-- The fields read from a word are those it was made of, where the numbers fit their fields (R41, R42). -/
theorem Encoding.readWord_word {e : Encoding} {m : Mnemonic} {j last : Nat} (i : BitVec 5) (rest : List Bool)
    (hj : j < 2 ^ e.wR) (hlast : last < 2 ^ e.lastWidth m) :
    e.readWord m (e.word m i j last) rest = .instr (m.instr i j last) rest := by
  obtain ⟨fieldI, fieldJ, fieldLast, unused⟩ := e.word_fields m i j last
  simp only [Encoding.readWord, unused, fieldI, fieldJ, fieldLast, numberOf_bitsOf_of_lt i.isLt,
    numberOf_bitsOf_of_lt hj, numberOf_bitsOf_of_lt hlast, BitVec.ofNat_toNat, BitVec.setWidth_eq,
    Bool.false_eq_true, if_false]

/-- A word begins with the `op` field, which names its mnemonic (R40, R48). -/
theorem Encoding.mnemonicOf_take_word {e : Encoding} (h : e.Valid) (m : Mnemonic) (i : BitVec 5) (j last : Nat)
    (rest : List Bool) : e.mnemonicOf (numberOf ((e.word m i j last ++ rest).take e.wOp)) = some m := by
  rw [Encoding.word, List.append_assoc, List.take_left' (bitsOf_length _ _), numberOf_bitsOf_of_lt (h.opFits m),
    Encoding.mnemonicOf_opMap h]

/-- The fields `op` and `i` fit in the word, whatever its format (R41 to R43). -/
theorem Encoding.Valid.op_i_le_len {e : Encoding} (h : e.Valid) (m : Mnemonic) : e.wOp + 5 ≤ (e.format m).len := by
  have fits := h.fieldsFit m
  simp only [Encoding.endAt, Encoding.lastAt, Encoding.jAt, Encoding.iAt] at fits
  omega

/-- A list of bits that begins with a word is decoded to the word's fields and the bits after it (R48). -/
theorem decode_word_append {e : Encoding} {m : Mnemonic} {j last : Nat} (h : e.Valid) (i : BitVec 5)
    (rest : List Bool) (hj : j < 2 ^ e.wR) (hlast : last < 2 ^ e.lastWidth m) :
    decode e (e.word m i j last ++ rest) = .instr (m.instr i j last) rest := by
  have wordLength := Encoding.word_length h m i j last
  have opFits := h.op_i_le_len m
  have enoughForOp : ¬ (e.word m i j last ++ rest).length < e.wOp := by rw [List.length_append]; omega
  have enoughForWord : ¬ (e.word m i j last ++ rest).length < (e.format m).len := by rw [List.length_append]; omega
  simp only [decode, if_neg enoughForOp, Encoding.mnemonicOf_take_word h, if_neg enoughForWord,
    List.take_left' wordLength, List.drop_left' wordLength, Encoding.readWord_word i rest hj hlast]

/-- A list of bits that begins with the word of a well-formed instruction is decoded to that instruction and the
bits after it (R48). -/
theorem decode_encode_append {e : Encoding} {ins : Instr} (h : e.Valid) (hins : ins.wellFormed e.wR = true)
    (rest : List Bool) : decode e (encode e ins ++ rest) = .instr ins rest := by
  obtain ⟨i, j, last, isWord, isInstr, fits⟩ := encode_eq_word e ins
  obtain ⟨hj, hlast⟩ := fits hins
  rw [isWord, decode_word_append h i rest hj hlast, isInstr]

/-- No instruction is spelled by the empty list of bits, so every word takes the decoder further. -/
theorem encode_length_pos {e : Encoding} (h : e.Valid) (ins : Instr) : 0 < (encode e ins).length := by
  obtain ⟨i, j, last, isWord, -⟩ := encode_eq_word e ins
  have := h.op_i_le_len ins.mnemonic
  rw [isWord, Encoding.word_length h]
  omega

@[simp] theorem decodeAll_nil (e : Encoding) (fuel : Nat) : decodeAll e fuel [] = some [] := by
  cases fuel <;> rfl

/-- With fuel left, the instruction at the head of a list of bits is the first of the program that the list spells. -/
theorem decodeAll_of_decode {e : Encoding} {bits rest : List Bool} {ins : Instr} (fuel : Nat)
    (hbits : 0 < bits.length) (h : decode e bits = .instr ins rest) :
    decodeAll e (fuel + 1) bits = (decodeAll e fuel rest).map (ins :: ·) := by
  cases bits with
  | nil => exact absurd hbits (Nat.lt_irrefl 0)
  | cons b bits => simp only [decodeAll, h]

/-- As much fuel as the image has bits is enough, because no word is empty. -/
theorem decodeAll_flatMap_encode {e : Encoding} {p : List Instr} {fuel : Nat} (h : e.Valid)
    (hp : ∀ ins ∈ p, ins.wellFormed e.wR = true) (hfuel : (p.flatMap (encode e)).length ≤ fuel) :
    decodeAll e fuel (p.flatMap (encode e)) = some p := by
  induction p generalizing fuel with
  | nil => exact decodeAll_nil e fuel
  | cons ins p ih =>
    obtain ⟨hins, hrest⟩ := List.forall_mem_cons.1 hp
    have nonempty := encode_length_pos h ins
    rw [List.flatMap_cons, List.length_append] at hfuel
    cases fuel with
    | zero => omega
    | succ fuel =>
      rw [List.flatMap_cons, decodeAll_of_decode fuel (by rw [List.length_append]; omega)
        (decode_encode_append h hins _), ih hrest (by omega), Option.map_some]

/-- Settles O7: the decoder takes one word after another off the image, and its fuel is the image's length. -/
theorem programImageDecodes : Obligations.ProgramImageDecodes :=
  fun _ _ he hp => decodeAll_flatMap_encode he hp le_rfl

end Sys2Proof
end

section
/-! What the decoder accepts is the word of the instruction it answers: a word is put together again from the fields
read off it, and its unused bits are 0 (30_encoding.md rules R41, R42, R48; log 11). -/

namespace Sys2Proof

/-! ## The runs of bits in a word -/

/-- The bits from a position on are a run and the bits after it. -/
theorem drop_eq_slice_append (start width : Nat) (word : List Bool) :
    word.drop start = slice start width word ++ word.drop (start + width) := by
  rw [slice, ← List.drop_drop, List.take_append_drop]

/-- A run that lies in the word has its full width. -/
theorem slice_length {start width : Nat} {word : List Bool} (h : start + width ≤ word.length) :
    (slice start width word).length = width := by
  rw [slice, List.length_take, List.length_drop]
  omega

/-- A run that lies in the word is spelled by the number read from it. -/
theorem bitsOf_numberOf_slice {start width : Nat} {word : List Bool} (h : start + width ≤ word.length) :
    bitsOf width (numberOf (slice start width word)) = slice start width word := by
  have spelled := bitsOf_numberOf (slice start width word)
  rwa [slice_length h] at spelled

/-- A run of unused bits that are all 0 is spelled by 0. -/
theorem bitsOf_zero_eq_slice {start width : Nat} {word : List Bool} (h : start + width ≤ word.length)
    (hz : (slice start width word).any id = false) : bitsOf width 0 = slice start width word := by
  have spelled := eq_bitsOf_zero hz
  rw [slice_length h] at spelled
  exact spelled.symm

/-- The number read from a field fits the field. -/
theorem numberOf_slice_lt (start width : Nat) (word : List Bool) : numberOf (slice start width word) < 2 ^ width := by
  refine (numberOf_lt _).trans_le (Nat.pow_le_pow_right (by decide) ?_)
  exact List.length_take_le _ _

/-! ## A word and the fields read from it -/

/-- The `i` field read from a word. -/
def Encoding.readI (e : Encoding) (m : Mnemonic) (word : List Bool) : BitVec 5 :=
  BitVec.ofNat 5 (numberOf (slice (e.iAt m) 5 word))

/-- The number in the `j` field of a word. -/
def Encoding.readJ (e : Encoding) (m : Mnemonic) (word : List Bool) : Nat := numberOf (slice (e.jAt m) e.wR word)

/-- The number in the last field of a word. -/
def Encoding.readLast (e : Encoding) (m : Mnemonic) (word : List Bool) : Nat :=
  numberOf (slice (e.lastAt m) (e.lastWidth m) word)

/-- The number read in the `j` field fits it. -/
theorem Encoding.readJ_lt (e : Encoding) (m : Mnemonic) (word : List Bool) : e.readJ m word < 2 ^ e.wR :=
  numberOf_slice_lt _ _ _

/-- The number read in the last field fits it. -/
theorem Encoding.readLast_lt (e : Encoding) (m : Mnemonic) (word : List Bool) :
    e.readLast m word < 2 ^ e.lastWidth m :=
  numberOf_slice_lt _ _ _

/-- A whole word that is accepted has no unused bit set, and its fields are the answer's (R41, R42). -/
theorem Encoding.readWord_eq_instr {e : Encoding} {m : Mnemonic} {word after rest : List Bool} {ins : Instr}
    (h : e.readWord m word after = .instr ins rest) :
    (e.unusedBits m word).any id = false ∧ after = rest ∧
      m.instr (e.readI m word) (e.readJ m word) (e.readLast m word) = ins := by
  unfold Encoding.readWord at h
  split at h
  · cases h
  case isFalse unused =>
    obtain ⟨sameInstr, sameRest⟩ := Decoded.instr.inj h
    exact ⟨Bool.eq_false_iff.2 unused, sameRest, sameInstr⟩

/-- A list of bits that is accepted begins with the `op` value of a mnemonic and holds the whole word that the
mnemonic's format asks for (R48). -/
theorem decode_eq_instr {e : Encoding} {bits rest : List Bool} {ins : Instr} (h : decode e bits = .instr ins rest) :
    ∃ m, numberOf (bits.take e.wOp) = e.opMap m ∧ (e.format m).len ≤ bits.length ∧
      e.readWord m (bits.take (e.format m).len) (bits.drop (e.format m).len) = .instr ins rest := by
  unfold decode at h
  split at h
  · cases h
  · split at h
    · cases h
    case h_2 m named =>
      split at h
      · cases h
      case isFalse enough => exact ⟨m, (Encoding.opMap_of_mnemonicOf named).symm, not_lt.1 enough, h⟩

/-- A word of the right length with the `op` value of its mnemonic and no unused bit set is made of the fields read
from it (R41, R42). -/
theorem Encoding.word_of_fields {e : Encoding} {m : Mnemonic} {word : List Bool} (h : e.Valid)
    (hlen : word.length = (e.format m).len) (hop : numberOf (word.take e.wOp) = e.opMap m)
    (hunused : (e.unusedBits m word).any id = false) :
    e.word m (e.readI m word) (e.readJ m word) (e.readLast m word) = word := by
  have endFits := h.fieldsFit m
  have iAt : e.iAt m = e.wOp + (e.format m).afterOp := rfl
  have jAt : e.jAt m = e.iAt m + 5 + (e.format m).afterI := rfl
  have lastAt : e.lastAt m = e.jAt m + e.wR + (e.format m).afterJ := rfl
  have endAt : e.endAt m = e.lastAt m + e.lastWidth m := rfl
  simp only [Encoding.unusedBits, List.any_append, Bool.or_eq_false_iff] at hunused
  obtain ⟨⟨⟨zeroOp, zeroI⟩, zeroJ⟩, zeroEnd⟩ := hunused
  have opRun : bitsOf e.wOp (e.opMap m) = word.take e.wOp := by
    have spelled := bitsOf_numberOf (word.take e.wOp)
    rwa [hop, List.length_take_of_le (by omega)] at spelled
  have iNumber : (e.readI m word).toNat = numberOf (slice (e.iAt m) 5 word) :=
    Nat.mod_eq_of_lt (numberOf_slice_lt _ _ _)
  have endRun : slice (e.endAt m) ((e.format m).len - e.endAt m) word = word.drop (e.endAt m) :=
    List.take_of_length_le (by rw [List.length_drop, hlen])
  rw [Encoding.word, opRun, iNumber, Encoding.readJ, Encoding.readLast,
    bitsOf_zero_eq_slice (by omega) zeroOp, bitsOf_numberOf_slice (by omega),
    bitsOf_zero_eq_slice (by omega) zeroI, bitsOf_numberOf_slice (by omega),
    bitsOf_zero_eq_slice (by omega) zeroJ, bitsOf_numberOf_slice (by omega),
    bitsOf_zero_eq_slice (by omega) zeroEnd, endRun]
  simp only [Encoding.endAt, Encoding.lastAt, Encoding.jAt, Encoding.iAt, ← drop_eq_slice_append,
    List.take_append_drop]

/-! ## The instruction of a mnemonic and its fields -/

/-- The encoding of a decoded term is the word of its mnemonic and its fields, where the last number fits. -/
theorem encode_instr {e : Encoding} {m : Mnemonic} {last : Nat} (i : BitVec 5) (j : Nat)
    (hlast : last < 2 ^ e.lastWidth m) : encode e (m.instr i j last) = e.word m i j last := by
  cases m with
  | cgexk | ceqxk | cugexk =>
    have literal : (BitVec.ofNat Config.wH last).toNat = last := Nat.mod_eq_of_lt hlast
    simp only [Mnemonic.instr, encode, literal]
  | _ => rfl

/-- The decoded term of a mnemonic and its fields is well formed when its register numbers fit (R6). -/
theorem Mnemonic.instr_wellFormed_iff {m : Mnemonic} {i : BitVec 5} {wR j last : Nat} :
    (m.instr i j last).wellFormed wR = true ↔ j < 2 ^ wR ∧ (m.isFormatII = false → last < 2 ^ wR) := by
  cases m <;> simp [Mnemonic.instr, Instr.wellFormed, regFits, Mnemonic.isFormatII]

/-- Settles O1, by reading back the fields that the word of the instruction was made of. -/
theorem decodeOfEncode : Obligations.DecodeOfEncode :=
  fun _ _ rest he hins => decode_encode_append he hins rest

/-- Settles O2: the head of the list is a whole word, and it is made of the fields that the decoder read from it. -/
theorem encodeOfDecode : Obligations.EncodeOfDecode := by
  intro e bits rest ins he h
  obtain ⟨m, hop, enough, hword⟩ := decode_eq_instr h
  obtain ⟨hunused, rfl, rfl⟩ := Encoding.readWord_eq_instr hword
  have hlen : (bits.take (e.format m).len).length = (e.format m).len := List.length_take_of_le enough
  have opInWord : e.wOp ≤ (e.format m).len := Nat.le_of_add_right_le (he.op_i_le_len m)
  have sameOp : numberOf ((bits.take (e.format m).len).take e.wOp) = e.opMap m := by
    rw [List.take_take, min_eq_left opInWord, hop]
  refine ⟨Mnemonic.instr_wellFormed_iff.2 ⟨e.readJ_lt m _, fun hm => ?_⟩, ?_⟩
  · have lastFits := e.readLast_lt m (bits.take (e.format m).len)
    rwa [Encoding.lastWidth, if_neg (Bool.eq_false_iff.1 hm)] at lastFits
  · rw [encode_instr _ _ (e.readLast_lt m _), Encoding.word_of_fields he hlen sameOp hunused, List.take_append_drop]

end Sys2Proof
end

section
/-! The words of `ENC_REF` as numbers: the formulas and the masks of 30_encoding.md rule R49, and the bits that the
decoder refuses (R49, R50; U11). -/

namespace Sys2Proof

/-! ## Numbers and their bits -/

@[simp] theorem bitsOf_zero (v : Nat) : bitsOf 0 v = [] := rfl

/-- The lowest bits of a number are those of a part of it and those below that part. -/
theorem bitsOf_add (n m v : Nat) : bitsOf (n + m) v = bitsOf n (v / 2 ^ m) ++ bitsOf m v := by
  induction n with
  | zero => rw [Nat.zero_add, bitsOf_zero, List.nil_append]
  | succ n ih => rw [Nat.succ_add, bitsOf, bitsOf, Nat.testBit_div_two_pow, ih, List.cons_append]

/-- The lowest bits of a number are those of the number that they spell. -/
theorem bitsOf_mod (n v : Nat) : bitsOf n (v % 2 ^ n) = bitsOf n v := by
  have spelled := bitsOf_numberOf (bitsOf n v)
  rwa [bitsOf_length, numberOf_bitsOf] at spelled

/-- Two fields one after another are one field, with the left one in the higher-weight bits (R5, `++`). -/
theorem bitsOf_append_bitsOf (n a : Nat) {m b : Nat} (hb : b < 2 ^ m) :
    bitsOf n a ++ bitsOf m b = bitsOf (n + m) (a * 2 ^ m + b) := by
  have left : (a * 2 ^ m + b) / 2 ^ m = a := by
    rw [Nat.mul_comm, Nat.mul_add_div (Nat.two_pow_pos m), Nat.div_eq_of_lt hb, Nat.add_zero]
  have right : (a * 2 ^ m + b) % 2 ^ m = b := by rw [Nat.mul_comm, Nat.mul_add_mod, Nat.mod_eq_of_lt hb]
  rw [bitsOf_add, left, ← bitsOf_mod m (a * 2 ^ m + b), right]

/-- Numbers that fit are equal when their bits are. -/
theorem eq_of_bitsOf_eq {n v w : Nat} (hv : v < 2 ^ n) (hw : w < 2 ^ n) (h : bitsOf n v = bitsOf n w) : v = w := by
  rw [← numberOf_bitsOf_of_lt hv, h, numberOf_bitsOf_of_lt hw]

/-- A mask of `n` bits at position `m` keeps that field of a number. -/
theorem and_mask (v n m : Nat) : v &&& (2 ^ n - 1) * 2 ^ m = v / 2 ^ m % 2 ^ n * 2 ^ m := by
  refine Nat.eq_of_testBit_eq fun i => ?_
  simp only [Nat.testBit_and, Nat.testBit_mul_two_pow, Nat.testBit_two_pow_sub_one, Nat.testBit_mod_two_pow,
    Nat.testBit_div_two_pow]
  by_cases hi : m ≤ i
  · rw [Nat.sub_add_cancel hi, Bool.and_comm, Bool.and_assoc]
  · simp [hi]

/-- The match of a format I row compares the `op` field (R49). -/
theorem and_maskI {w op : Nat} (hw : w < 2 ^ 24) : w &&& 0xFF8000 = op * 2 ^ 15 ↔ w / 2 ^ 15 = op := by
  have opField : w &&& 0xFF8000 = w / 2 ^ 15 % 2 ^ 9 * 2 ^ 15 := and_mask w 9 15
  rw [opField]
  omega

/-- The match of a format II row compares the `op` field and asks for 0 in the pad bits (R49). -/
theorem and_maskII {w op : Nat} (hw : w < 2 ^ 48) :
    w &&& 0xFF801F000000 = op * 2 ^ 39 ↔ w / 2 ^ 39 = op ∧ w / 2 ^ 24 % 32 = 0 := by
  have opField : w &&& 0xFF8000000000 = w / 2 ^ 39 % 2 ^ 9 * 2 ^ 39 := and_mask w 9 39
  have padField : w &&& 0x1F000000 = w / 2 ^ 24 % 2 ^ 5 * 2 ^ 24 := and_mask w 5 24
  have twoFields : w &&& 0xFF801F000000 = 2 ^ 39 * (w / 2 ^ 39 % 2 ^ 9) + w / 2 ^ 24 % 2 ^ 5 * 2 ^ 24 := by
    rw [Nat.two_pow_add_eq_or_of_lt (by omega), ← padField, Nat.mul_comm, ← opField, ← Nat.and_or_distrib_left]
    rfl
  rw [twoFields]
  omega

/-! ## The rows of the opcode map -/

/-- `ENC_REF` meets what the spec asks of the open encoding parameters (R3, R49). -/
theorem encRef_valid : encRef.Valid where
  opFits m := by cases m <;> decide
  opInjective m m' := by cases m <;> cases m' <;> decide
  fieldsFit m := by cases m <;> decide

/-- A format I row is the `op` value of a format I mnemonic, with its decoded term. -/
theorem eq_of_mem_formatIRows {row : Nat × (BitVec 5 → Nat → Nat → Instr)} (h : row ∈ formatIRows) :
    ∃ m : Mnemonic, m.isFormatII = false ∧ row = (refOp m, fun i j k => m.instr i j k) := by
  have rows : formatIRows =
    (Mnemonic.all.filter fun m => !m.isFormatII).map fun m => (refOp m, fun i j k => m.instr i j k) := rfl
  rw [rows, List.mem_map] at h
  obtain ⟨m, hm, rfl⟩ := h
  exact ⟨m, by simpa using (List.mem_filter.1 hm).2, rfl⟩

/-- A format II row is the `op` value of a format II mnemonic, with its decoded term. -/
theorem eq_of_mem_formatIIRows {row : Nat × (BitVec 5 → Nat → Literal → Instr)} (h : row ∈ formatIIRows) :
    ∃ m : Mnemonic, m.isFormatII = true ∧ row = (refOp m, fun i j h => m.instr i j h.toNat) := by
  have rows : formatIIRows =
      (Mnemonic.all.filter Mnemonic.isFormatII).map fun m => (refOp m, fun i j h => m.instr i j h.toNat) := by
    have literals : Mnemonic.all.filter Mnemonic.isFormatII = [.cgexk, .ceqxk, .cugexk] := rfl
    simp only [literals, List.map, formatIIRows, refOp, Mnemonic.instr, BitVec.ofNat_toNat, BitVec.setWidth_eq]
  rw [rows, List.mem_map] at h
  obtain ⟨m, hm, rfl⟩ := h
  exact ⟨m, (List.mem_filter.1 hm).2, rfl⟩

/-- An `op` value from 1 to 21 is that of a mnemonic: the one at that position in the table (R49). -/
theorem exists_refOp {op : Nat} (h1 : 1 ≤ op) (h21 : op ≤ 21) : ∃ m, refOp m = op := by
  have positions : ∀ n : Fin 21, refOp (Mnemonic.all.get n) = n + 1 := by decide
  exact ⟨_, (positions ⟨op - 1, by omega⟩).trans (Nat.sub_add_cancel h1)⟩

/-- Every `op` value of `ENC_REF` lies in 1 to 21, those of format II in 15 to 17 (R49). -/
theorem refOp_range (m : Mnemonic) :
    1 ≤ refOp m ∧ refOp m ≤ 21 ∧ (m.isFormatII = true ↔ 15 ≤ refOp m ∧ refOp m ≤ 17) := by
  cases m <;> decide

/-! ## The formulas of a word -/

section
variable {m : Mnemonic}

/-- A format I word of `ENC_REF` is its four fields (R41, R49). -/
theorem encRef_word_formatI (hm : m.isFormatII = false) (i : BitVec 5) (j k : Nat) :
    encRef.word m i j k = bitsOf 9 (refOp m) ++ (bitsOf 5 i.toNat ++ (bitsOf 5 j ++ bitsOf 5 k)) := by
  simp [Encoding.word, Encoding.endAt, Encoding.lastAt, Encoding.jAt, Encoding.iAt, Encoding.format,
    Encoding.lastWidth, hm, encRef]

/-- A format II word of `ENC_REF` is its four fields, with five zeros before the literal (R42, R49). -/
theorem encRef_word_formatII (hm : m.isFormatII = true) (i : BitVec 5) (j h : Nat) :
    encRef.word m i j h =
      bitsOf 9 (refOp m) ++ (bitsOf 5 i.toNat ++ (bitsOf 5 j ++ (bitsOf 5 0 ++ bitsOf 24 h))) := by
  simp [Encoding.word, Encoding.endAt, Encoding.lastAt, Encoding.jAt, Encoding.iAt, Encoding.format,
    Encoding.lastWidth, hm, encRef, Config.wH]

/-- The formula of a format I instruction (R49). -/
theorem encode_encRef_formatI (hm : m.isFormatII = false) (i : BitVec 5) {j k : Nat} (hj : j < 32) (hk : k < 32) :
    encode encRef (m.instr i j k) = bitsOf 24 (refOp m * 2 ^ 15 + i.toNat * 2 ^ 10 + j * 2 ^ 5 + k) := by
  have kFits : k < 2 ^ encRef.lastWidth m := by rw [Encoding.lastWidth, hm]; exact hk
  have hi := i.isLt
  rw [encode_instr i j kFits, encRef_word_formatI hm, bitsOf_append_bitsOf 5 j (by omega),
    bitsOf_append_bitsOf 5 i.toNat (by omega), bitsOf_append_bitsOf 9 _ (by omega)]
  exact congrArg (bitsOf _) (by omega)

/-- The formula of a format II instruction (R49). -/
theorem encode_encRef_formatII (hm : m.isFormatII = true) (i : BitVec 5) {j h : Nat} (hj : j < 32)
    (hh : h < 2 ^ 24) :
    encode encRef (m.instr i j h) = bitsOf 48 (refOp m * 2 ^ 39 + i.toNat * 2 ^ 34 + j * 2 ^ 29 + h) := by
  have hFits : h < 2 ^ encRef.lastWidth m := by rw [Encoding.lastWidth, hm]; exact hh
  have hi := i.isLt
  rw [encode_instr i j hFits, encRef_word_formatII hm, bitsOf_append_bitsOf 5 0 hh,
    bitsOf_append_bitsOf 5 j (by omega), bitsOf_append_bitsOf 5 i.toNat (by omega),
    bitsOf_append_bitsOf 9 _ (by omega)]
  exact congrArg (bitsOf _) (by omega)

end

/-- Settles O3: a word is its fields one after another, and each field has its width. -/
theorem encodedWordFormula : Obligations.EncodedWordFormula := by
  refine ⟨fun e ins he => ?_, fun row hrow i j k hj hk => ?_, fun row hrow i j h hj => ?_⟩
  · obtain ⟨i, j, last, isWord, -⟩ := encode_eq_word e ins
    rw [isWord, Encoding.word_length he]
  · obtain ⟨m, hm, rfl⟩ := eq_of_mem_formatIRows hrow
    exact encode_encRef_formatI hm i hj hk
  · obtain ⟨m, hm, rfl⟩ := eq_of_mem_formatIIRows hrow
    exact encode_encRef_formatII hm i hj h.isLt

/-! ## The masks of a word -/

section
variable {m : Mnemonic} {w : Nat}

/-- A list of bits is decoded to an instruction and the bits after a word of it exactly when that word spells the
instruction (R48). -/
theorem decode_append_iff {e : Encoding} {word rest : List Bool} {ins : Instr} (he : e.Valid) :
    decode e (word ++ rest) = .instr ins rest ↔ ins.wellFormed e.wR = true ∧ encode e ins = word := by
  constructor
  · intro h
    obtain ⟨hins, spelled⟩ := encodeOfDecode e _ rest ins he h
    exact ⟨hins, List.append_cancel_right spelled⟩
  · rintro ⟨hins, rfl⟩
    exact decodeOfEncode e ins rest he hins

/-- A word of 24 bits is decoded to an instruction of a format I mnemonic exactly when it has its `op` value. -/
theorem op_eq_iff_decode_formatI (hm : m.isFormatII = false) (hw : w < 2 ^ 24) (rest : List Bool) :
    w / 2 ^ 15 = refOp m ↔
      ∃ i j k, decode encRef (bitsOf 24 w ++ rest) = .instr (m.instr i j k) rest := by
  simp only [decode_append_iff encRef_valid, Mnemonic.instr_wellFormed_iff]
  constructor
  · intro hop
    have jFits : w / 2 ^ 5 % 32 < 32 := Nat.mod_lt _ (by decide)
    have kFits : w % 32 < 32 := Nat.mod_lt _ (by decide)
    refine ⟨BitVec.ofNat 5 (w / 2 ^ 10), w / 2 ^ 5 % 32, w % 32, ⟨jFits, fun _ => kFits⟩, ?_⟩
    rw [encode_encRef_formatI hm _ jFits kFits, BitVec.toNat_ofNat]
    exact congrArg (bitsOf 24) (by omega)
  · rintro ⟨i, j, k, ⟨hj, hk⟩, spelled⟩
    have jFits : j < 32 := hj
    have kFits : k < 32 := hk hm
    have hi := i.isLt
    obtain ⟨-, opAtMost21, -⟩ := refOp_range m
    rw [encode_encRef_formatI hm i jFits kFits] at spelled
    have number := eq_of_bitsOf_eq (by omega) hw spelled
    omega

/-- A word of 48 bits is decoded to an instruction of a format II mnemonic exactly when it has its `op` value and no
pad bit set. -/
theorem op_eq_iff_decode_formatII (hm : m.isFormatII = true) (hw : w < 2 ^ 48) (rest : List Bool) :
    w / 2 ^ 39 = refOp m ∧ w / 2 ^ 24 % 32 = 0 ↔
      ∃ (i : BitVec 5) (j : Nat) (h : Literal),
        decode encRef (bitsOf 48 w ++ rest) = .instr (m.instr i j h.toNat) rest := by
  simp only [decode_append_iff encRef_valid, Mnemonic.instr_wellFormed_iff]
  constructor
  · rintro ⟨hop, hpad⟩
    have jFits : w / 2 ^ 29 % 32 < 32 := Nat.mod_lt _ (by decide)
    refine ⟨BitVec.ofNat 5 (w / 2 ^ 34), w / 2 ^ 29 % 32, BitVec.ofNat 24 w, ⟨jFits, by simp [hm]⟩, ?_⟩
    rw [encode_encRef_formatII hm _ jFits (BitVec.isLt _), BitVec.toNat_ofNat, BitVec.toNat_ofNat]
    exact congrArg (bitsOf 48) (by omega)
  · rintro ⟨i, j, h, ⟨hj, -⟩, spelled⟩
    have jFits : j < 32 := hj
    have hi := i.isLt
    have hh : h.toNat < 2 ^ 24 := h.isLt
    obtain ⟨-, opAtMost21, -⟩ := refOp_range m
    rw [encode_encRef_formatII hm i jFits hh] at spelled
    have number := eq_of_bitsOf_eq (by omega) hw spelled
    omega

end

/-- Settles O4: the mask keeps the `op` field and the pad bits, and a word with these as its row has them is put
together from its other fields. -/
theorem wordMatchesItsRow : Obligations.WordMatchesItsRow := by
  refine ⟨fun row hrow w rest hw => ?_, fun row hrow w rest hw => ?_⟩
  · obtain ⟨m, hm, rfl⟩ := eq_of_mem_formatIRows hrow
    rw [and_maskI hw, op_eq_iff_decode_formatI hm hw]
  · obtain ⟨m, hm, rfl⟩ := eq_of_mem_formatIIRows hrow
    rw [and_maskII hw, op_eq_iff_decode_formatII hm hw]

/-! ## What the decoder refuses -/

/-- A list that ends before its `op` field does is truncated (U11). -/
theorem decode_of_length_lt {e : Encoding} {bits : List Bool} (h : bits.length < e.wOp) :
    decode e bits = .bad .truncated :=
  if_pos h

/-- An `op` value that `OPMAP` gives no instruction is refused with that value (R50). -/
theorem decode_of_undefinedOp {e : Encoding} {op : Nat} (hop : op < 2 ^ e.wOp) (h : ∀ m, e.opMap m ≠ op)
    (rest : List Bool) : decode e (bitsOf e.wOp op ++ rest) = .bad (.undefinedOp op) := by
  have unnamed : e.mnemonicOf op = none := List.find?_eq_none.2 fun m _ => by simpa using h m
  have enoughForOp : ¬ (bitsOf e.wOp op ++ rest).length < e.wOp := by
    rw [List.length_append, bitsOf_length]
    omega
  simp only [decode, if_neg enoughForOp, List.take_left' (bitsOf_length _ _), numberOf_bitsOf_of_lt hop, unnamed]

/-- After the `op` value of a mnemonic the decoder reads the whole word of the mnemonic's format, if it is there
(R48). -/
theorem decode_of_opMap {e : Encoding} (he : e.Valid) (m : Mnemonic) (rest : List Bool) :
    let bits := bitsOf e.wOp (e.opMap m) ++ rest
    decode e bits =
      if bits.length < (e.format m).len then .bad .truncated
      else e.readWord m (bits.take (e.format m).len) (bits.drop (e.format m).len) := by
  have enoughForOp : ¬ (bitsOf e.wOp (e.opMap m) ++ rest).length < e.wOp := by
    rw [List.length_append, bitsOf_length]
    omega
  simp only [decode, if_neg enoughForOp, List.take_left' (bitsOf_length _ _),
    numberOf_bitsOf_of_lt (he.opFits m), Encoding.mnemonicOf_opMap he]

/-- A list that ends before the word of its `op` value does is truncated (U11). -/
theorem decode_of_opMap_of_length_lt {e : Encoding} (he : e.Valid) (m : Mnemonic) {rest : List Bool}
    (h : e.wOp + rest.length < (e.format m).len) :
    decode e (bitsOf e.wOp (e.opMap m) ++ rest) = .bad .truncated := by
  rw [decode_of_opMap he, if_pos (by rwa [List.length_append, bitsOf_length])]

/-- A run of a number's bits is a part of the number. -/
theorem slice_bitsOf (start width below v : Nat) :
    slice start width (bitsOf (start + (width + below)) v) = bitsOf width (v / 2 ^ below) := by
  rw [bitsOf_add, bitsOf_add]
  exact slice_append (bitsOf_length _ _).symm (bitsOf_length _ _).symm

/-- The unused bits of a format II word of `ENC_REF` are the five pad bits before the literal (R49). -/
theorem encRef_unusedBits_formatII {m : Mnemonic} (hm : m.isFormatII = true) (w : Nat) :
    encRef.unusedBits m (bitsOf 48 w) = bitsOf 5 (w / 2 ^ 24 % 32) := by
  have pad : slice 19 5 (bitsOf 48 w) = bitsOf 5 (w / 2 ^ 24) := slice_bitsOf 19 5 24 w
  have modPad : bitsOf 5 (w / 2 ^ 24 % 32) = bitsOf 5 (w / 2 ^ 24) := bitsOf_mod 5 _
  rw [modPad, ← pad]
  simp [Encoding.unusedBits, Encoding.endAt, Encoding.lastAt, Encoding.jAt, Encoding.iAt, Encoding.format,
    Encoding.lastWidth, hm, encRef, Config.wH, slice]

/-- A format II word of `ENC_REF` with a pad bit set is refused with its pad bits (R49). -/
theorem decode_of_pad {m : Mnemonic} {w : Nat} (hm : m.isFormatII = true) (hop : w / 2 ^ 39 = refOp m)
    (hpad : w / 2 ^ 24 % 32 ≠ 0) (rest : List Bool) :
    decode encRef (bitsOf 48 w ++ rest) = .bad (.unusedNotZero (bitsOf 5 (w / 2 ^ 24 % 32))) := by
  have wordLength : (encRef.format m).len = 48 := by rw [Encoding.format, hm]; rfl
  have opFirst : bitsOf 48 w ++ rest = bitsOf encRef.wOp (encRef.opMap m) ++ (bitsOf 39 w ++ rest) := by
    rw [bitsOf_add 9 39 w, hop, List.append_assoc]
    rfl
  have enough : ¬ (bitsOf 48 w ++ rest).length < 48 := by
    rw [List.length_append, bitsOf_length]
    omega
  have padSet : (bitsOf 5 (w / 2 ^ 24 % 32)).any id = true := by
    rw [← Bool.not_eq_false]
    intro allZero
    have zeroBits := eq_bitsOf_zero allZero
    rw [bitsOf_length] at zeroBits
    exact hpad (eq_of_bitsOf_eq (by omega) (by decide) zeroBits)
  rw [opFirst, decode_of_opMap encRef_valid, ← opFirst, wordLength, if_neg enough,
    List.take_left' (bitsOf_length _ _), Encoding.readWord, encRef_unusedBits_formatII hm, if_pos padSet]

/-- Settles O5: an `op` value names no mnemonic, or it does and the rest of its word is looked at. -/
theorem undefinedWordsRefused : Obligations.UndefinedWordsRefused := by
  refine ⟨fun e op rest hop h => decode_of_undefinedOp hop h rest, fun e bits => decode_of_length_lt,
    fun op rest hop hrange => ?undefined, fun w rest hw h15 h17 hpad => ?pad, fun op rest h1 h21 hlen => ?short⟩
  case undefined =>
    refine decode_of_undefinedOp (e := encRef) hop (fun m sameOp => ?_) rest
    obtain ⟨h1, h21, -⟩ := refOp_range m
    have : refOp m = op := sameOp
    omega
  case pad =>
    obtain ⟨m, hm⟩ := exists_refOp (op := w / 2 ^ 39) (by omega) (by omega)
    obtain ⟨-, -, formatII⟩ := refOp_range m
    exact decode_of_pad (formatII.2 (by omega)) hm.symm hpad rest
  case short =>
    obtain ⟨m, rfl⟩ := exists_refOp h1 h21
    refine decode_of_opMap_of_length_lt encRef_valid m ?_
    obtain ⟨-, -, formatII⟩ := refOp_range m
    have wordLength : (encRef.format m).len = if 15 ≤ refOp m ∧ refOp m ≤ 17 then 48 else 24 := by
      rw [Encoding.format, ← if_congr formatII rfl rfl]
      split <;> rfl
    rw [wordLength]
    change 9 + rest.length < _
    split at hlen
    case isTrue isII => rw [if_pos isII]; omega
    case isFalse isI => rw [if_neg isI]; omega

/-- Settles O6, by decoding the eight words. -/
theorem sampleWordsDecode : Obligations.SampleWordsDecode := by
  refine ⟨?_, ?_, ?_, ?_, ?_, ?_, ?_, ?_⟩ <;> decide

end Sys2Proof
end

section
/-! What an instruction does when the registers that it reads are there, and when one is not (10_state.md rule R23,
30_encoding.md rule R44, 92_eei_decisions.md D24); and what is left of a compare when no storage or check stands
behind its condition bit numbers (40_compare_common.md rules R61, R62). -/

namespace Sys2Proof.Machine

section
variable {s : State} {j k n : Nat}

/-! ## Operands that are there -/

/-- With the register there the continuation runs on its word. -/
theorem withA_of_some {f : ArithWord → Host.Outcome State Fault Refusal} {v : ArithWord}
    (hv : s.a[n]? = some v) : withA s n f = f v := by
  simp only [withA, State.readA, hv]

/-- With both registers there a compare of them completes if its continuation always does. -/
theorem withArith_completes {f : ArithWord → ArithWord → Host.Outcome State Fault Refusal}
    (h : ∀ n ∈ [j, k], n < s.a.length) (hf : ∀ v w, ∃ t, f v w = .next t) : ∃ t, withArith s j k f = .next t := by
  rw [withArith_of_some (List.getElem?_eq_getElem (h j (by simp))) (List.getElem?_eq_getElem (h k (by simp)))]
  exact hf _ _

/-- With both registers there a compare of them completes if its continuation always does. -/
theorem withIndex_completes {f : IndexWord → IndexWord → Host.Outcome State Fault Refusal}
    (h : ∀ n ∈ [j, k], n < s.x.length) (hf : ∀ v w, ∃ t, f v w = .next t) : ∃ t, withIndex s j k f = .next t := by
  rw [withIndex_of_some (List.getElem?_eq_getElem (h j (by simp))) (List.getElem?_eq_getElem (h k (by simp)))]
  exact hf _ _

/-- With the register there a compare of it completes if its continuation always does. -/
theorem withX_completes {f : IndexWord → Host.Outcome State Fault Refusal}
    (h : ∀ n ∈ [j], n < s.x.length) (hf : ∀ v, ∃ t, f v = .next t) : ∃ t, withX s j f = .next t := by
  rw [withX_of_some (List.getElem?_eq_getElem (h j (by simp)))]
  exact hf _

/-- With the four registers there a compare of the two pairs completes if its continuation always does. -/
theorem withPairs_completes {f : ArithPair → ArithPair → Host.Outcome State Fault Refusal}
    (h : ∀ n ∈ [j, j + 1, k, k + 1], n < s.a.length) (hf : ∀ p q, ∃ t, f p q = .next t) :
    ∃ t, withPairs s j k f = .next t := by
  obtain ⟨hj, hk⟩ := (List.forall_mem_append (l₁ := [j, j + 1]) (l₂ := [k, k + 1])).1 h
  exact withArith_completes hj fun _ _ => withArith_completes hk fun _ _ => hf _ _

/-! ## An operand that is missing -/

/-- Reading a missing `A` register refuses the instruction by its number (R44). -/
theorem withA_of_missing {f : ArithWord → Host.Outcome State Fault Refusal} (h : s.a.length ≤ n) :
    withA s n f = .refused (.noArithRegister n) := by
  simp only [withA, State.readA, List.getElem?_eq_none h]

/-- Reading a missing `X` register refuses the instruction by its number (R44). -/
theorem withX_of_missing {f : IndexWord → Host.Outcome State Fault Refusal} (h : s.x.length ≤ n) :
    withX s n f = .refused (.noIndexRegister n) := by
  simp only [withX, State.readX, List.getElem?_eq_none h]

/-- With one of the two registers missing the instruction is refused by the first that is (R44, D24). -/
theorem withArith_of_missing {f : ArithWord → ArithWord → Host.Outcome State Fault Refusal}
    (h : ¬ ∀ n ∈ [j, k], n < s.a.length) :
    ∃ n ∈ [j, k], s.a.length ≤ n ∧ withArith s j k f = .refused (.noArithRegister n) := by
  by_cases hj : j < s.a.length
  · have hk : s.a.length ≤ k := by simpa [hj] using h
    refine ⟨k, by simp, hk, ?_⟩
    rw [withArith, withA_of_some (List.getElem?_eq_getElem hj), withA_of_missing hk]
  · exact ⟨j, by simp, not_lt.1 hj, withA_of_missing (not_lt.1 hj)⟩

/-- With one of the two registers missing the instruction is refused by the first that is (R44, D24). -/
theorem withIndex_of_missing {f : IndexWord → IndexWord → Host.Outcome State Fault Refusal}
    (h : ¬ ∀ n ∈ [j, k], n < s.x.length) :
    ∃ n ∈ [j, k], s.x.length ≤ n ∧ withIndex s j k f = .refused (.noIndexRegister n) := by
  by_cases hj : j < s.x.length
  · have hk : s.x.length ≤ k := by simpa [hj] using h
    refine ⟨k, by simp, hk, ?_⟩
    rw [withIndex, withX_of_some (List.getElem?_eq_getElem hj), withX_of_missing hk]
  · exact ⟨j, by simp, not_lt.1 hj, withX_of_missing (not_lt.1 hj)⟩

/-- With one of the four registers missing the instruction is refused by the first that is (R44, D24). -/
theorem withPairs_of_missing {f : ArithPair → ArithPair → Host.Outcome State Fault Refusal}
    (h : ¬ ∀ n ∈ [j, j + 1, k, k + 1], n < s.a.length) :
    ∃ n ∈ [j, j + 1, k, k + 1], s.a.length ≤ n ∧ withPairs s j k f = .refused (.noArithRegister n) := by
  by_cases hj : ∀ n ∈ [j, j + 1], n < s.a.length
  · have hk : ¬ ∀ n ∈ [k, k + 1], n < s.a.length := fun hk => h (List.forall_mem_append.2 ⟨hj, hk⟩)
    rw [withPairs, withPair, withArith_of_some (List.getElem?_eq_getElem (hj j (by simp)))
      (List.getElem?_eq_getElem (hj (j + 1) (by simp)))]
    obtain ⟨n, hn, hmissing, hrefused⟩ := withArith_of_missing hk
    exact ⟨n, List.mem_append_right [j, j + 1] hn, hmissing, hrefused⟩
  · obtain ⟨n, hn, hmissing, hrefused⟩ := withArith_of_missing hj
    exact ⟨n, List.mem_append_left [k, k + 1] hn, hmissing, hrefused⟩

end

/-- Every instruction whose operands exist completes: its meaning goes on with them to a next state, or stops at an
odd register number before reading any (R67, R153). -/
theorem exec_completes {i : Instr} {s : State} (h : i.operandsExist s) : ∃ t, exec i s = .next t := by
  cases i with
  | cged b j k | ceqd b j k | cmged b j k | cmeqd b j k =>
    by_cases hodd : oddField j k = true
    · exact ⟨s.oddRegister, if_pos hodd⟩
    · obtain ⟨ha, -⟩ := h.resolve_left ((oddDouble_iff_oddField rfl).not.2 hodd)
      obtain ⟨t, ht⟩ := withPairs_completes ha fun _ _ => ⟨_, rfl⟩
      exact ⟨t, (if_neg hodd).trans ht⟩
  | cgex | ceqx | cugex | cbx | cbmx =>
    obtain ⟨-, hx⟩ := h.resolve_left (not_oddDouble_of_no_fields rfl)
    exact withIndex_completes hx fun _ _ => ⟨_, rfl⟩
  | cgexk | ceqxk | cugexk =>
    obtain ⟨-, hx⟩ := h.resolve_left (not_oddDouble_of_no_fields rfl)
    exact withX_completes hx fun _ => ⟨_, rfl⟩
  | _ =>
    obtain ⟨ha, -⟩ := h.resolve_left (not_oddDouble_of_no_fields rfl)
    exact withArith_completes ha fun _ _ => ⟨_, rfl⟩

/-- Settles O51: the form of its operands refuses the instruction by the first register that is missing. -/
theorem missingRegisterIsRefused : Obligations.MissingRegisterIsRefused := by
  intro i s h
  obtain ⟨even, missing⟩ := not_or.1 h
  cases i with
  | cged b j k | ceqd b j k | cmged b j k | cmeqd b j k =>
    have hodd : ¬ oddField j k = true := (oddDouble_iff_oddField rfl).not.1 even
    obtain ⟨n, hn, hmissing, hrefused⟩ := withPairs_of_missing fun ha => missing ⟨ha, List.forall_mem_nil _⟩
    exact .inl ⟨n, hn, hmissing, (if_neg hodd).trans hrefused⟩
  | cgex | ceqx | cugex | cbx | cbmx =>
    exact .inr (withIndex_of_missing fun hx => missing ⟨List.forall_mem_nil _, hx⟩)
  | cgexk b j | ceqxk b j | cugexk b j =>
    have hx : s.x.length ≤ j := by simpa [Instr.readsA, Instr.readsX] using missing
    exact .inr ⟨j, List.mem_singleton_self j, hx, withX_of_missing hx⟩
  | _ =>
    exact .inl (withArith_of_missing fun ha => missing ⟨ha, List.forall_mem_nil _⟩)

/-! ## The bits of `i` that name nothing -/

/-- Settles O43: a segment's base is its leading bits of `i`, and the instruction uses no more of `i` (R45). -/
theorem ignoredBitsOfSegmentField : Obligations.IgnoredBitsOfSegmentField := by
  intro s i i' j k
  refine ⟨fun h => ?_, fun h => ?_⟩
  · have sameBase : baseOf8 i = baseOf8 i' := by rw [baseOf8_eq, baseOf8_eq, h]
    simp only [exec, execCbma, sameBase]
  · have sameBase : baseOf4 i = baseOf4 i' := by rw [baseOf4_eq, baseOf4_eq, h]
    simp only [exec, execCbmx, sameBase]

/-- `SetC` calls that name no storage do nothing (R61). -/
theorem State.setCs_of_no_storage {ws : List (Nat × Bool)} (s : State) (h : ∀ n ∈ ws.map Prod.fst, 24 ≤ n) :
    s.setCs ws = s := by
  have kept : (s.setCs ws).c = s.c := by
    refine Vector.ext fun n hn => ?_
    have notNamed : n ∉ ws.map Prod.fst := fun hmem => absurd (h n hmem) (not_le.2 hn)
    simpa [hn] using State.setCs_c_of_not_mem s notNamed
  rw [State.setCs_eq, kept]

/-- A commit of `SetC` calls that name neither storage nor a condition check only advances `pc` (R61, R62). -/
theorem State.commit_of_lost {ws : List (Nat × Bool)} (s : State) (h : ∀ n ∈ ws.map Prod.fst, 26 ≤ n) :
    s.commit ws false = s.advance := by
  have noCheck : conditionChecks ws = false := by
    rw [← Bool.not_eq_true]
    intro check
    rcases mem_of_conditionChecks check with h24 | h25
    · exact absurd (h 24 h24) (by decide)
    · exact absurd (h 25 h25) (by decide)
  rw [State.commit, State.setCs_of_no_storage s fun n hn => le_trans (by decide) (h n hn), noCheck]
  exact s.retire_none

/-- Only a floating-point compare has an odd register number to stop at (R67). -/
theorem isFloat_of_oddDouble {i : Instr} (h : i.oddDouble) : i.isFloat := by
  cases i with
  | cged | ceqd | cmged | cmeqd | cgen | ceqn | cmgen | cmeqn => trivial
  | _ => exact absurd h (not_oddDouble_of_no_fields rfl)

/-- Settles O49: the instruction completes with the commit of its `SetC` calls, all of which are lost. -/
theorem lostResultHasNoEffect : Obligations.LostResultHasNoEffect := by
  intro i s hfloat hoperands hlost
  obtain ⟨t, ht⟩ := exec_completes hoperands
  obtain ⟨e, hfits, rfl, -⟩ := exec_effect ht
  rw [ht]
  cases e with
  | odd => exact absurd (isFloat_of_oddDouble hfits) hfloat
  | commit drawn ws uo =>
    obtain ⟨-, hwrites, honlyFloat⟩ := hfits
    obtain ⟨rfl, rfl⟩ : drawn = false ∧ uo = false := by simpa using fun h => hfloat (honlyFloat h)
    rw [Effect.apply, State.commit_of_lost _ fun n hn => hlost n ((hwrites n).1 hn)]
    rfl

end Sys2Proof.Machine
end

section
/-! `SetC` (40_compare_common.md rules R60 to R62): what one call and a list of calls do, and that an instruction
writes condition bits by such calls alone, one for each bit number that its `i` field designates (R17, R45). From this
what is left of a compare whose result is lost (R61), and what a compare and a step leave unchanged (R59). -/

namespace Sys2Proof.Machine

/-! ## One call -/

/-- The commit of one `SetC` call has the effect of a single-bit compare (R60 to R62, R69). -/
theorem State.commit_single_effect (s : State) (i : BitVec 5) (r uo : Bool) :
    SingleBitEffect i r uo s (s.commit (singleWrite i r) uo) where
  c n hn := by rw [State.commit_c, setCs_single_c s i r hn]
  retires := by rw [← conditionChecks_single]; exact s.commit_retires _ uo

/-- Settles O14, by the commit of one call. -/
theorem setCRule : Obligations.SetCRule :=
  fun s i v => ⟨s.commit_single_effect i v false, s.commit_draws _ false⟩

/-! ## A list of calls -/

/-- Of calls that name each bit once, each leaves its value in its bit (R60). -/
theorem State.setCs_c_of_nodup {n : Nat} {v : Bool} {ws : List (Nat × Bool)} (s : State)
    (once : (ws.map Prod.fst).Nodup) (h : (n, v) ∈ ws) (hn : n < 24) : (s.setCs ws).c[n]? = some v := by
  induction ws generalizing s with
  | nil => simp at h
  | cons w ws ih =>
    obtain ⟨notLater, onceLater⟩ := List.nodup_cons.1 once
    rw [State.setCs_cons]
    rcases List.mem_cons.1 h with rfl | later
    · rw [State.setCs_c_of_not_mem _ notLater, State.setC_c, if_pos ⟨rfl, hn⟩]
    · exact ih _ onceLater later

/-- Calls raise `CC` exactly by 0 to bit 24 or 1 to bit 25 (R62). -/
theorem conditionChecks_iff {ws : List (Nat × Bool)} :
    conditionChecks ws = true ↔ (24, false) ∈ ws ∨ (25, true) ∈ ws := by
  simp only [conditionChecks, List.any_eq_true, conditionCheck, Prod.exists, Bool.or_eq_true, Bool.and_eq_true,
    beq_iff_eq, Bool.not_eq_true']
  constructor
  · rintro ⟨n, v, h, ⟨rfl, rfl⟩ | ⟨rfl, rfl⟩⟩
    · exact .inl h
    · exact .inr h
  · rintro (h | h)
    · exact ⟨24, false, h, .inl ⟨rfl, rfl⟩⟩
    · exact ⟨25, true, h, .inr ⟨rfl, rfl⟩⟩

/-- A single-bit compare names one bit. -/
theorem singleWrite_nodup (i : BitVec 5) (r : Bool) : ((singleWrite i r).map Prod.fst).Nodup :=
  List.nodup_singleton _

/-- A multiple byte compare names each bit of its segment once (R121, R123). -/
theorem multipleWrites_nodup (base : Nat) (m : List Bool) : ((multipleWrites base m).map Prod.fst).Nodup := by
  have numbers : (multipleWrites base m).map Prod.fst = List.range' base (m.length + 1) := by
    rw [multipleWrites, List.map_cons, laneWrites_numbers, List.range'_succ]
  rw [numbers]
  exact List.nodup_range'

/-! ## The calls of an instruction -/

/-- The `SetC` calls of an effect: none at an odd register number (R67). -/
def Effect.writes : Effect → List (Nat × Bool)
  | .odd => []
  | .commit _ writes _ => writes

/-- An instruction designates no bit number that its `i` field cannot hold (R43, R45). -/
theorem le_31_of_designates {i : Instr} {n : Nat} (h : i.designates n) : n ≤ 31 := by
  cases i with
  | cbma b =>
    obtain ⟨segment, -⟩ := h
    have := b.isLt
    omega
  | cbmx b =>
    have segment : n / 4 = b.toNat / 4 := h
    have := b.isLt
    omega
  | _ b =>
    have single : n = b.toNat := h
    have := b.isLt
    omega

/-- The calls of an effect that fits are for the designated bit numbers, and there are none at an odd register
number (R17, R45, R67). -/
theorem Effect.mem_writes {e : Effect} {i : Instr} (hfits : e.Fits i) (n : Nat) :
    n ∈ e.writes.map Prod.fst ↔ i.designates n ∧ ¬ i.oddDouble := by
  cases e with
  | odd =>
    have hodd : i.oddDouble := hfits
    simp [Effect.writes, hodd]
  | commit =>
    obtain ⟨even, hwrites, -⟩ := hfits
    exact (hwrites n).trans (and_iff_left even).symm

/-- The condition bits after an effect are those its calls leave. -/
theorem Effect.apply_c (e : Effect) (s : State) : (e.apply s).c = (s.setCs e.writes).c := by
  cases e with
  | odd => rfl
  | commit drawn ws uo => rw [Effect.apply, State.commit_c]; exact State.setCs_c_congr (by rfl) ws

/-- An effect raises `CC` exactly when its calls do (R62, R67). -/
theorem Effect.raised_cc (e : Effect) : e.raised.cc = conditionChecks e.writes := by
  cases e <;> rfl

/-- To the condition bits and `CC` an effect that fits and names each bit once does what its calls do (R60). -/
theorem Effect.apply_setCEffect {e : Effect} {i : Instr} (hfits : e.Fits i) (once : (e.writes.map Prod.fst).Nodup)
    (s : State) : SetCEffect e.writes s (e.apply s) where
  once := once
  inRange n v h := le_31_of_designates ((e.mem_writes hfits n).1 (List.mem_map_of_mem h)).1
  written n v h hn := by rw [e.apply_c, s.setCs_c_of_nodup once h hn]
  kept n h := by
    have notNamed : n ∉ e.writes.map Prod.fst := by simpa using h
    rw [e.apply_c, s.setCs_c_of_not_mem notNamed]
  cc := by
    rw [e.apply_exc, ← conditionChecks_iff, ← e.raised_cc]
    exact Bool.or_eq_true_iff

/-- Whatever the condition bits hold, the instruction has one effect on the state, which fits it, names each bit once
and raises `UO` and `RS` as given. -/
def ActsOnBits (i : Instr) (s : State) (uo rs : Bool) : Prop :=
  ∃ e : Effect, e.Fits i ∧ (e.writes.map Prod.fst).Nodup ∧ e.raised.uo = uo ∧ e.raised.rs = rs ∧
    ∀ c : Vector Bool 24, exec i { s with c := c } = .next (e.apply { s with c := c })

section
variable {i : Instr} {b : BitVec 5} {s : State}

/-- A commit of fitting calls that name each bit once acts so, whatever bits it finds. -/
theorem actsOnBits_commit {ws : List (Nat × Bool)} (hfits : (Effect.commit false ws false).Fits i)
    (once : (ws.map Prod.fst).Nodup)
    (hexec : ∀ c : Vector Bool 24, exec i { s with c := c } = .next (State.commit { s with c := c } ws false)) :
    ActsOnBits i s false false :=
  ⟨.commit false ws false, hfits, once, rfl, rfl, hexec⟩

/-- A single-bit compare acts so (R69). -/
theorem actsOnBits_single {r : Bool} (hodd : i.doubleFields = none) (hbit : ∀ n, i.designates n ↔ n = b.toNat)
    (hexec : ∀ c : Vector Bool 24, exec i { s with c := c } = State.setSingle { s with c := c } b r) :
    ActsOnBits i s false false :=
  actsOnBits_commit (fits_single (not_oddDouble_of_no_fields hodd) hbit) (singleWrite_nodup b r) hexec

/-- A floating-point compare acts so, and raises `UO` when an operand is unnormalized (R92, R93). -/
theorem actsOnBits_float {n1 u1 n2 u2 r : Bool} (hodd : ¬ i.oddDouble) (hbit : ∀ n, i.designates n ↔ n = b.toNat)
    (hfloat : i.isFloat)
    (hexec : ∀ c : Vector Bool 24, exec i { s with c := c } = State.setFloat { s with c := c } b n1 u1 n2 u2 r) :
    ActsOnBits i s (n1 || n2) false :=
  ⟨floatEffect b n1 u1 n2 u2 r (Config.draw s.draws), fits_float hodd hbit hfloat, singleWrite_nodup _ _, rfl, rfl,
    fun c => (hexec c).trans (State.setFloat_eq _ b n1 u1 n2 u2 r)⟩

end

/-- The operands decide alone whether an instruction raises `UO` and `RS`: it raises the same two with any other `i`
field (R66, R67). -/
theorem exec_withBit {i : Instr} {s t : State} (h : exec i s = .next t) :
    ∃ uo rs, ∀ b, ActsOnBits (i.withBit b) s uo rs := by
  cases i with
  | cgen | ceqn | cmgen | cmeqn =>
    obtain ⟨v, w, hv, hw, -⟩ := withArith_next.1 h
    exact ⟨_, _, fun b => actsOnBits_float (not_oddDouble_of_no_fields rfl) (fun _ => Iff.rfl) trivial
      fun _ => withArith_of_some hv hw⟩
  | cged _ j k | ceqd _ j k | cmged _ j k | cmeqd _ j k =>
    by_cases hodd : oddField j k = true
    · exact ⟨_, _, fun b => ⟨.odd, (oddDouble_iff_oddField rfl).2 hodd, List.nodup_nil, rfl, rfl,
        fun _ => if_pos hodd⟩⟩
    · obtain ⟨p, q, h1, h2, h3, h4, -⟩ := withPairs_next.1 ((if_neg hodd).symm.trans h)
      exact ⟨_, _, fun b => actsOnBits_float ((oddDouble_iff_oddField rfl).not.2 hodd) (fun _ => Iff.rfl) trivial
        fun _ => (if_neg hodd).trans (withPairs_of_some h1 h2 h3 h4)⟩
  | cgei | ceqi | cugei | cba =>
    obtain ⟨v, w, hv, hw, -⟩ := withArith_next.1 h
    exact ⟨_, _, fun b => actsOnBits_single rfl (fun _ => Iff.rfl) fun _ => withArith_of_some hv hw⟩
  | cbma =>
    obtain ⟨v, w, hv, hw, -⟩ := withArith_next.1 h
    exact ⟨_, _, fun b => actsOnBits_commit (fits_cbma _ _) (multipleWrites_nodup _ _)
      fun _ => withArith_of_some hv hw⟩
  | cgex | ceqx | cugex | cbx =>
    obtain ⟨v, w, hv, hw, -⟩ := withIndex_next.1 h
    exact ⟨_, _, fun b => actsOnBits_single rfl (fun _ => Iff.rfl) fun _ => withIndex_of_some hv hw⟩
  | cgexk | ceqxk | cugexk =>
    obtain ⟨v, hv, -⟩ := withX_next.1 h
    exact ⟨_, _, fun b => actsOnBits_single rfl (fun _ => Iff.rfl) fun _ => withX_of_some hv⟩
  | cbmx =>
    obtain ⟨v, w, hv, hw, -⟩ := withIndex_next.1 h
    exact ⟨_, _, fun b => actsOnBits_commit (fits_cbmx _ _) (multipleWrites_nodup _ _)
      fun _ => withIndex_of_some hv hw⟩

/-- Every instruction is itself with the value of its own `i` field. -/
theorem exists_withBit_eq (i : Instr) : ∃ b, i.withBit b = i := by
  cases i <;> exact ⟨_, rfl⟩

/-- Settles O15: the calls are those of the instruction's effect, whatever the condition bits hold. -/
theorem setCIsTheOneWay : Obligations.SetCIsTheOneWay := by
  intro i s t h
  obtain ⟨b, own⟩ := exists_withBit_eq i
  obtain ⟨uo, rs, acts⟩ := exec_withBit h
  obtain ⟨e, hfits, once, -, -, hexec⟩ := own ▸ acts b
  refine ⟨e.writes, fun n => ?_, fun c' => ⟨_, hexec c', Effect.apply_setCEffect hfits once _⟩⟩
  rw [← e.mem_writes hfits n]
  simp

/-- Settles O16: the calls name no storage, and the operands alone decide on `UO` and `RS`. -/
theorem lostResult : Obligations.LostResult := by
  intro i s hoperands hlost
  obtain ⟨t, ht⟩ := exec_completes hoperands
  obtain ⟨b, own⟩ := exists_withBit_eq i
  obtain ⟨uo, rs, acts⟩ := exec_withBit ht
  obtain ⟨e, hfits, -, rfl, rfl, hexec⟩ := own ▸ acts b
  refine ⟨e.apply s, hexec s.c, ?lost, fun b' t' ht' => ?raises⟩
  case lost =>
    rw [e.apply_c, s.setCs_of_no_storage fun n hn => hlost n ((e.mem_writes hfits n).1 hn).1]
  case raises =>
    obtain ⟨e', -, -, sameUo, sameRs, hexec'⟩ := acts b'
    obtain rfl : e'.apply s = t' := Host.Outcome.next.inj ((hexec' s.c).symm.trans ht')
    rw [e.apply_exc, e'.apply_exc]
    exact ⟨congrArg (s.exc.uo || ·) sameUo.symm, congrArg (s.exc.rs || ·) sameRs.symm⟩

/-! ## What an instruction and a step leave unchanged -/

/-- An effect changes nothing but condition bits, exception bits, `pc`, the fault record and the draw count (R59). -/
theorem Effect.apply_frame (e : Effect) (s : State) :
    e.apply s = { s with c := (e.apply s).c, exc := (e.apply s).exc, pc := (e.apply s).pc,
                         fault := (e.apply s).fault, draws := (e.apply s).draws } := by
  cases e with
  | odd => rfl
  | commit => simp only [Effect.apply, State.commit_eq]

/-- Settles O53: an instruction that completes has the frame of its effect. -/
theorem wholeEffectOfACompare : Obligations.WholeEffectOfACompare := by
  intro i s t h
  obtain ⟨e, -, rfl, -⟩ := exec_effect h
  exact ⟨⟨by rw [e.apply_frame], by rw [e.apply_frame]⟩, e.apply_frame s⟩

/-- A step that answers a next state ran the instruction at `pc`, with no fault recorded (R22, R131, R153). -/
theorem exec_of_step {s t : State} (h : step s = .next t) :
    s.fault = none ∧ ∃ i, s.prog[s.pc]? = some i ∧ exec i s = .next t := by
  cases hfault : s.fault with
  | some r => simp [step, hfault] at h
  | none =>
    cases hfetch : s.prog[s.pc]? with
    | none => simp [step, hfault, State.fetch, hfetch] at h
    | some i => exact ⟨rfl, i, rfl, (step_eq_exec hfault hfetch).symm.trans h⟩

/-- Exception bits are sticky (R21). -/
theorem ExcBits.within_union (e f : ExcBits) : e.within (e.union f) :=
  ⟨Bool.or_inl, Bool.or_inl, Bool.or_inl⟩

/-- Settles O54: a step is an instruction, which has that frame and whose effect clears no exception bit. -/
theorem stepLeavesRegistersAndProgram : Obligations.StepLeavesRegistersAndProgram := by
  intro s t h
  obtain ⟨-, i, -, hexec⟩ := exec_of_step h
  obtain ⟨⟨ha, hx⟩, frame⟩ := wholeEffectOfACompare i s t hexec
  obtain ⟨e, -, rfl, -⟩ := exec_effect hexec
  refine ⟨ha, hx, by rw [frame], by rw [frame], ?_⟩
  rw [e.apply_exc]
  exact s.exc.within_union _

end Sys2Proof.Machine
end

section
/-! The result bit of a compare: a draw for an unnormalized operand (40_compare_common.md rule R66,
41_compare_float.md rules R92, R93), and the six relations by the bit that a compare writes (R65). -/

namespace Sys2Proof.Machine

/-! ## A result that is a draw -/

/-- The draw count does not matter to the effect of a single-bit compare. -/
theorem SingleBitEffect.of_draws {i : BitVec 5} {r uo : Bool} {s t : State} {d : Nat}
    (h : SingleBitEffect i r uo { s with draws := d } t) : SingleBitEffect i r uo s t :=
  ⟨h.c, Retires.of_draws h.retires⟩

/-- The result is a draw when an operand is unnormalized and is not `u` (R66). -/
theorem drawsResult_iff {n1 u1 n2 u2 : Bool} :
    drawsResult n1 u1 n2 u2 = true ↔ (n1 = true ∧ ¬ u1 = true) ∨ (n2 = true ∧ ¬ u2 = true) := by
  simp [drawsResult]

/-- A floating-point compare whose result is a draw commits the drawn bit and raises `UO`, after the draw (R66). -/
theorem State.setFloat_of_draw {n1 u1 n2 u2 : Bool} (s : State) (i : BitVec 5) (r : Bool)
    (h : (n1 = true ∧ ¬ u1 = true) ∨ (n2 = true ∧ ¬ u2 = true)) :
    s.setFloat i n1 u1 n2 u2 r = .next (s.draw.2.commit (singleWrite i (Config.draw s.draws)) true) := by
  have unnormalized : (n1 || n2) = true := Bool.or_eq_true_iff.2 (h.imp And.left And.left)
  simp only [State.setFloat, State.floatResult, drawsResult_iff.2 h, unnormalized, if_true, State.draw_bit]

/-- What that commit does, also under the policy `fault` where the drawn bit goes to bit 24 (R134; D11, D20). -/
theorem State.commit_draw_effect (s : State) (i : BitVec 5) :
    let d := Config.draw s.draws
    let t := s.draw.2.commit (singleWrite i d) true
    t.draws = s.draws + 1 ∧ t.exc.uo = true ∧ SingleBitEffect i d true s t ∧
      (i = 24#5 → s.policy = .fault →
        t.fault = some { raised := { uo := true, cc := !d, rs := false }, pc := s.pc }) := by
  intro d t
  have effect : SingleBitEffect i d true s t := SingleBitEffect.of_draws (s.draw.2.commit_single_effect i d true)
  refine ⟨by simp [t], by simp [effect.retires.uo], effect, ?_⟩
  rintro rfl hpolicy
  obtain ⟨recorded, -⟩ := effect.retires.stops (by simp [ExcBits.none]) hpolicy
  rw [recorded]
  simp

/-- Settles O27: an operand that makes the result a draw leaves the commit of the drawn bit, in both precisions. -/
theorem unnormalizedOperandDraws : Obligations.UnnormalizedOperandDraws := by
  refine ⟨fun fp rel s i j k v w hv hw h => ?single, fun fp rel s i j k p q hj hk h1 h2 h3 h4 h => ?double⟩
  case single =>
    simp only [← isU_iff] at h
    exact ⟨_, (withArith_of_some hv hw).trans (s.setFloat_of_draw i _ h), s.commit_draw_effect i⟩
  case double =>
    simp only [← isUD_iff] at h
    have even : ¬ oddField j k = true := Bool.eq_false_iff.1 (oddField_eq_false.2 ⟨hj, hk⟩)
    exact ⟨_, (if_neg even).trans ((withPairs_of_some h1 h2 h3 h4).trans (s.setFloat_of_draw i _ h)),
      s.commit_draw_effect i⟩

/-! ## The six relations -/

section
variable {n : Nat} (a b : BitVec n)

/-! The signed and the unsigned relation as orders of the numbers that the words spell (R5, R99). -/

theorem sge_eq_true_iff : sge a b = true ↔ b.toInt ≤ a.toInt := by simp [sge_eq]
theorem sge_eq_false_iff : sge a b = false ↔ a.toInt < b.toInt := by simp [sge_eq]
theorem uge_eq_true_iff : uge a b = true ↔ b.toNat ≤ a.toNat := by simp [uge]
theorem uge_eq_false_iff : uge a b = false ↔ a.toNat < b.toNat := by simp [uge]

end

/-- A single-bit compare leaves its result in the bit it names, if that exists (R60, R69). -/
theorem State.commit_single_bit {i : BitVec 5} (s : State) (r : Bool) (hi : i.toNat < 24) :
    (s.commit (singleWrite i r) false).c[i.toNat]? = some r := by
  rw [State.commit_c, setCs_single_c s i r hi, if_pos rfl]

/-- Settles O45: each relation is the result of its compare, and the two orders of the operands together with equality
give all six. -/
theorem sixRelations : Obligations.SixRelations := by
  refine ⟨fun s i j k a b hi ha hb => ?arith, fun s i j k a b hi ha hb => ?index⟩
  case arith =>
    refine ⟨_, _, _, withArith_of_some ha hb, withArith_of_some hb ha, withArith_of_some ha hb, ?_⟩
    simp only [s.commit_single_bit _ hi, Option.some.injEq, sge_eq_true_iff, sge_eq_false_iff, beq_iff_eq,
      beq_eq_false_iff_ne, BitVec.toInt_inj, ge_iff_le, gt_iff_lt, ne_eq, and_self]
  case index =>
    refine ⟨_, _, _, _, _, withIndex_of_some ha hb, withIndex_of_some hb ha, withIndex_of_some ha hb,
      withIndex_of_some hb ha, withIndex_of_some ha hb, ?_⟩
    simp only [s.commit_single_bit _ hi, Option.some.injEq, sge_eq_true_iff, sge_eq_false_iff, uge_eq_true_iff,
      uge_eq_false_iff, beq_iff_eq, beq_eq_false_iff_ne, BitVec.toInt_inj, BitVec.toNat_inj, ge_iff_le, gt_iff_lt,
      ne_eq, and_self]

end Sys2Proof.Machine
end

section
/-! Floating-point compares (41_compare_float.md): what the two shared procedures `FCmpS` and `FCmpD` do for every
record `FP` and every relation (R92, R93, R67), the eight instructions as instances of them (R83 to R90), and their
result where no draw is made: 0 for an operand `u` (R82), and the relation itself on normalized operands, for which the
laws of R91 speak. -/

namespace Sys2Proof.Machine

/-! ## The shared end of a floating-point compare -/

/-- The bit that the effect of a floating-point compare writes is the one that R92 and R93 ask for. -/
theorem floatEffect_bit_iff {n1 u1 n2 u2 d r : Bool} :
    (if drawsResult n1 u1 n2 u2 then d else if u1 || u2 then false else r) = true ↔
      floatBit (n1 = true) (u1 = true) (n2 = true) (u2 = true) (d = true) (r = true) := by
  rw [floatBit, ← drawsResult_iff]
  cases drawsResult n1 u1 n2 u2 with
  | true => simp
  | false => simp

/-- The end of a floating-point compare has the whole effect of one (R92, R93). -/
theorem State.setFloat_effect (s : State) (i : BitVec 5) (n1 u1 n2 u2 r : Bool) :
    ∃ t, s.setFloat i n1 u1 n2 u2 r = .next t ∧
      FloatEffect i (n1 = true) (u1 = true) (n2 = true) (u2 = true) (r = true) s t := by
  have draws := State.commit_draws { s with draws := s.draws + (drawsResult n1 u1 n2 u2).toNat }
  refine ⟨_, s.setFloat_eq i n1 u1 n2 u2 r, ?result, fun h => ?drawn, fun h => ?notDrawn⟩
  case result =>
    exact ⟨_, _, floatEffect_bit_iff, Bool.or_eq_true_iff,
      SingleBitEffect.of_draws (State.commit_single_effect _ i _ _)⟩
  case drawn => exact (draws _ _).trans (by rw [drawsResult_iff.2 h]; rfl)
  case notDrawn => exact (draws _ _).trans (by rw [Bool.eq_false_iff.2 (drawsResult_iff.not.2 h)]; rfl)

/-- Where no operand is unnormalized without being `u`, a floating-point compare makes no draw and writes the one bit
that is the relation of operands neither of which is `u` (R66, R82). -/
theorem FloatEffect.of_no_draw {i : BitVec 5} {n1 u1 n2 u2 rel : Prop} {s t : State} {r uo : Bool}
    (h : FloatEffect i n1 u1 n2 u2 rel s t) (h1 : n1 → u1) (h2 : n2 → u2)
    (hr : r = true ↔ ¬ (u1 ∨ u2) ∧ rel) (huo : uo = true ↔ n1 ∨ n2) :
    t.draws = s.draws ∧ SingleBitEffect i r uo s t := by
  have noDraw : ¬ ((n1 ∧ ¬ u1) ∨ (n2 ∧ ¬ u2)) := by tauto
  obtain ⟨r', uo', hr', huo', effect⟩ := h.result
  have sameBit : r' = r := by
    rw [Bool.eq_iff_iff, hr', hr]
    exact ⟨fun bit => bit.2 noDraw, fun bit => ⟨fun draw => absurd draw noDraw, fun _ => bit⟩⟩
  have sameUo : uo' = uo := Bool.eq_iff_iff.2 (huo'.trans huo.symm)
  exact ⟨h.notDrawn noDraw, sameBit ▸ sameUo ▸ effect⟩

section
variable {fp : FP} {s : State} {j k : Nat} (i : BitVec 5)

/-! ## Single precision: `FCmpS` (R92) -/

section
variable (rel : ArithWord → ArithWord → Bool) {v w : ArithWord}

/-- `FCmpS` completes with its whole effect wherever its two registers are there (R92). -/
theorem fcmpS_effect (hv : s.a[j]? = some v) (hw : s.a[k]? = some w) :
    ∃ t, fcmpS fp rel i j k s = .next t ∧ SingleFloatEffect fp rel i v w s t := by
  simp only [fcmpS, withArith_of_some hv hw, SingleFloatEffect, ← isU_iff]
  exact s.setFloat_effect ..

/-- On normalized operands that are not `u`, `FCmpS` writes the relation and raises no `UO`. -/
theorem fcmpS_normal (hv : s.a[j]? = some v) (hw : s.a[k]? = some w) (normalV : NormalSingle fp v)
    (normalW : NormalSingle fp w) :
    ∃ t, fcmpS fp rel i j k s = .next t ∧ t.draws = s.draws ∧ SingleBitEffect i (rel v w) false s t := by
  obtain ⟨t, ht, effect⟩ := fcmpS_effect i rel hv hw
  obtain ⟨nv, uv⟩ := normalV
  obtain ⟨nw, uw⟩ := normalW
  exact ⟨t, ht, FloatEffect.of_no_draw effect (by simp [nv]) (by simp [nw]) (by simp [uv, uw]) (by simp [nv, nw])⟩

end

/-! ## Double precision: `FCmpD` (R93) -/

section
variable (rel : ArithPair → ArithPair → Bool) {p q : ArithPair}

/-- The state after an odd register number, as Safety.lean writes it (R67, R134). -/
theorem State.oddRegister_eq (s : State) : s.oddRegister = OddRegisterState s := by
  simp [State.oddRegister, State.setExc, State.recordFault, ExcBits.union, OddRegisterState]

/-- With an odd `j` or `k`, `FCmpD` sets `RS` and records the fault, whatever the registers hold (R67, D4). -/
theorem fcmpD_odd (hodd : j % 2 = 1 ∨ k % 2 = 1) : fcmpD fp rel i j k s = .next (OddRegisterState s) := by
  rw [fcmpD, if_pos (oddField_eq_true.2 hodd), s.oddRegister_eq]

/-- With even `j` and `k`, `FCmpD` completes with its whole effect wherever its four registers are there (R93). -/
theorem fcmpD_effect (hj : j % 2 = 0) (hk : k % 2 = 0) (hp1 : s.a[j]? = some p.1) (hp2 : s.a[j + 1]? = some p.2)
    (hq1 : s.a[k]? = some q.1) (hq2 : s.a[k + 1]? = some q.2) :
    ∃ t, fcmpD fp rel i j k s = .next t ∧ DoubleFloatEffect fp rel i p q s t := by
  have even : ¬ oddField j k = true := Bool.eq_false_iff.1 (oddField_eq_false.2 ⟨hj, hk⟩)
  simp only [fcmpD, if_neg even, withPairs_of_some hp1 hp2 hq1 hq2, DoubleFloatEffect, ← isUD_iff]
  exact s.setFloat_effect ..

/-- On normalized operands that are not `u`, `FCmpD` writes the relation and raises no `UO`. -/
theorem fcmpD_normal (hj : j % 2 = 0) (hk : k % 2 = 0) (hp1 : s.a[j]? = some p.1) (hp2 : s.a[j + 1]? = some p.2)
    (hq1 : s.a[k]? = some q.1) (hq2 : s.a[k + 1]? = some q.2) (normalP : NormalDouble fp p)
    (normalQ : NormalDouble fp q) :
    ∃ t, fcmpD fp rel i j k s = .next t ∧ t.draws = s.draws ∧ SingleBitEffect i (rel p q) false s t := by
  obtain ⟨t, ht, effect⟩ := fcmpD_effect i rel hj hk hp1 hp2 hq1 hq2
  obtain ⟨np, up⟩ := normalP
  obtain ⟨nq, uq⟩ := normalQ
  exact ⟨t, ht, FloatEffect.of_no_draw effect (by simp [np]) (by simp [nq]) (by simp [up, uq]) (by simp [np, nq])⟩

end
end

/-! ## The eight instructions -/

/-- Settles O18: the instruction is `FCmpS` with the relation `FP.ge_s` (R83). -/
theorem cgenResult : Obligations.CgenResult := fun _ i _ _ _ _ => fcmpS_effect i Config.fp.geS

/-- Settles O19: the instruction is `FCmpS` with the relation `FP.eq_s` (R84). -/
theorem ceqnResult : Obligations.CeqnResult := fun _ i _ _ _ _ => fcmpS_effect i Config.fp.eqS

/-- Settles O20: the instruction is `FCmpS` with the relation `FP.mge_s` (R87). -/
theorem cmgenResult : Obligations.CmgenResult := fun _ i _ _ _ _ => fcmpS_effect i Config.fp.mgeS

/-- Settles O21: the instruction is `FCmpS` with the relation `FP.meq_s` (R88). -/
theorem cmeqnResult : Obligations.CmeqnResult := fun _ i _ _ _ _ => fcmpS_effect i Config.fp.meqS

/-- Settles O22: the instruction is `FCmpD` with the relation `FP.ge_d` (R85). -/
theorem cgedResult : Obligations.CgedResult :=
  ⟨fun _ i _ _ _ _ => fcmpD_effect i Config.fp.geD, fun _ i _ _ => fcmpD_odd i Config.fp.geD⟩

/-- Settles O23: the instruction is `FCmpD` with the relation `FP.eq_d` (R86). -/
theorem ceqdResult : Obligations.CeqdResult :=
  ⟨fun _ i _ _ _ _ => fcmpD_effect i Config.fp.eqD, fun _ i _ _ => fcmpD_odd i Config.fp.eqD⟩

/-- Settles O24: the instruction is `FCmpD` with the relation `FP.mge_d` (R89). -/
theorem cmgedResult : Obligations.CmgedResult :=
  ⟨fun _ i _ _ _ _ => fcmpD_effect i Config.fp.mgeD, fun _ i _ _ => fcmpD_odd i Config.fp.mgeD⟩

/-- Settles O25: the instruction is `FCmpD` with the relation `FP.meq_d` (R90). -/
theorem cmeqdResult : Obligations.CmeqdResult :=
  ⟨fun _ i _ _ _ _ => fcmpD_effect i Config.fp.meqD, fun _ i _ _ => fcmpD_odd i Config.fp.meqD⟩

/-! ## An operand `u`, and operands on which the laws of R91 speak -/

/-- Settles O26: each operand that is unnormalized is `u`, so no draw is made, and `u` leaves no relation to ask. -/
theorem operandUGivesFalse : Obligations.OperandUGivesFalse := by
  refine ⟨fun fp rel s i j k v w hv hw hu unnormV unnormW => ?single,
    fun fp rel s i j k p q hj hk hp1 hp2 hq1 hq2 hu unnormP unnormQ => ?double⟩
  case single =>
    obtain ⟨t, ht, effect⟩ := fcmpS_effect i rel hv hw
    exact ⟨t, ht, FloatEffect.of_no_draw effect unnormV unnormW (by simp [hu]) Bool.or_eq_true_iff⟩
  case double =>
    obtain ⟨t, ht, effect⟩ := fcmpD_effect i rel hj hk hp1 hp2 hq1 hq2
    exact ⟨t, ht, FloatEffect.of_no_draw effect unnormP unnormQ (by simp [hu]) Bool.or_eq_true_iff⟩

/-- The four relations of a precision whose two pairs have the laws of R91 hold of an operand and itself. -/
theorem relation_refl_of_laws {α : Type} {ok : α → Prop} {ge eq mge meq : α → α → Bool} (laws : RelationLaws ok ge eq)
    (magnitude : RelationLaws ok mge meq) {v : α} (hv : ok v) : ∀ rel ∈ [ge, eq, mge, meq], rel v v = true := by
  simp [laws.ge_refl v hv, laws.eq_refl v hv, magnitude.ge_refl v hv, magnitude.eq_refl v hv]

/-- Settles O28: the result is the relation of the operand and itself, which the laws of R91 say is 1. -/
theorem normalOperandEqualsItself : Obligations.NormalOperandEqualsItself := by
  intro fp lawful
  refine ⟨fun rel hrel s i j v hv normal => ?single, fun rel hrel s i j p hj hp1 hp2 normal => ?double⟩
  case single =>
    rw [← relation_refl_of_laws lawful.single lawful.singleMagnitude normal rel hrel]
    exact fcmpS_normal i rel hv hv normal normal
  case double =>
    rw [← relation_refl_of_laws lawful.double lawful.doubleMagnitude normal rel hrel]
    exact fcmpD_normal i rel hj hj hp1 hp2 hp1 hp2 normal normal

/-- On normalized operands that are not `u`, the condition bit after `FCmpS` is the relation. -/
theorem fcmpS_normal_bit {fp : FP} {rel : ArithWord → ArithWord → Bool} {s t : State} {i : BitVec 5} {j k : Nat}
    {v w : ArithWord} (hv : s.a[j]? = some v) (hw : s.a[k]? = some w) (normalV : NormalSingle fp v)
    (normalW : NormalSingle fp w) (hi : i.toNat < 24) (ht : fcmpS fp rel i j k s = .next t) :
    t.c[i.toNat]? = some (rel v w) := by
  obtain ⟨t', ht', -, effect⟩ := fcmpS_normal i rel hv hw normalV normalW
  obtain rfl : t' = t := Host.Outcome.next.inj (ht'.symm.trans ht)
  rw [effect.c _ hi, if_pos rfl]

/-- Settles O29: on two operands that are normalized and not `u`, each bit is the relation in its order, and the laws
of R91 have the relation in one order or the other. -/
theorem bothOrdersFalseShowsSpecialOperand : Obligations.BothOrdersFalseShowsSpecialOperand := by
  intro fp lawful rel hrel s t t' i i' j k v w hv hw hi hi' ht ht' bit bit'
  by_contra special
  obtain ⟨normalV, normalW⟩ : NormalSingle fp v ∧ NormalSingle fp w := by
    simpa [NormalSingle, and_assoc] using special
  rw [fcmpS_normal_bit hv hw normalV normalW hi ht, Option.some.injEq] at bit
  rw [fcmpS_normal_bit hw hv normalW normalV hi' ht', Option.some.injEq] at bit'
  have total : rel v w = true ∨ rel w v = true := by
    obtain rfl | rfl : rel = fp.geS ∨ rel = fp.mgeS := by simpa using hrel
    · exact lawful.single.total v w normalV normalW
    · exact lawful.singleMagnitude.total v w normalV normalW
  simp [bit, bit'] at total

end Sys2Proof.Machine
end

section
/-! Compares of two integers (42_compare_integer.md rules R99 to R102): the whole effect of any compare of two words
that ends in `SetC(i, r)` and the three instructions as instances of it; a register compared with itself, also by the
index and the byte compares (R110 to R112, R119, R120, R122); and where the signed and the unsigned order differ. -/

namespace Sys2Proof.Machine

/-! ## A single-bit compare of two registers -/

section
variable {s : State} {j k : Nat} (i : BitVec 5)

/-- A compare of two `A` registers that ends in `SetC(i, r)` has the whole effect of a single-bit compare (R69). -/
theorem withArith_setSingle_effect (r : ArithWord → ArithWord → Bool) {v w : ArithWord} (hv : s.a[j]? = some v)
    (hw : s.a[k]? = some w) :
    ∃ t, withArith s j k (fun a b => s.setSingle i (r a b)) = .next t ∧ t.draws = s.draws ∧
      SingleBitEffect i (r v w) false s t :=
  ⟨_, withArith_of_some hv hw, s.commit_draws _ _, s.commit_single_effect i _ _⟩

/-- A compare of two `X` registers that ends in `SetC(i, r)` has the whole effect of a single-bit compare (R69). -/
theorem withIndex_setSingle_effect (r : IndexWord → IndexWord → Bool) {v w : IndexWord} (hv : s.x[j]? = some v)
    (hw : s.x[k]? = some w) :
    ∃ t, withIndex s j k (fun a b => s.setSingle i (r a b)) = .next t ∧ t.draws = s.draws ∧
      SingleBitEffect i (r v w) false s t :=
  ⟨_, withIndex_of_some hv hw, s.commit_draws _ _, s.commit_single_effect i _ _⟩

end

/-! ## The three instructions -/

/-- Settles O30: the instruction writes `sge48`, the order of the two's-complement integers (R100). -/
theorem cgeiResult : Obligations.CgeiResult := by
  intro s i j k v w hv hw
  rw [← sge_eq]
  exact withArith_setSingle_effect i sge hv hw

/-- Settles O31: the instruction writes whether the two words are identical (R101). -/
theorem ceqiResult : Obligations.CeqiResult :=
  fun _ i _ _ _ _ => withArith_setSingle_effect i fun a b => a == b

/-- Settles O32: the instruction writes the order of the numbers that the words spell (R102). -/
theorem cugeiResult : Obligations.CugeiResult :=
  fun _ i _ _ _ _ => withArith_setSingle_effect i uge

/-! ## A register compared with itself -/

/-- A word is signed greater than or equal to itself (R99). -/
theorem sge_self {n : Nat} (a : BitVec n) : sge a a = true := (sge_eq_true_iff a a).2 le_rfl

/-- A word is unsigned greater than or equal to itself (R99). -/
theorem uge_self {n : Nat} (a : BitVec n) : uge a a = true := (uge_eq_true_iff a a).2 le_rfl

/-- `Any(m)` is 1 when some lane matches (R119). -/
theorem anyMatch_of_mem {m : List Bool} (h : true ∈ m) : anyMatch m = true := List.any_eq_true.2 ⟨true, h, rfl⟩

/-- The test byte of an `A` register is its own sixth operand byte (R119). -/
theorem anyMatch_matchA_self (a : ArithWord) : anyMatch (matchA (testA a) a) = true :=
  anyMatch_of_mem <| by rw [matchA_eq]; exact List.mem_map.2 ⟨6, by simp⟩

/-- The test byte of an `X` register is its own third operand byte (R119). -/
theorem anyMatch_matchX_self (a : IndexWord) : anyMatch (matchX (testX a) a) = true :=
  anyMatch_of_mem <| by rw [matchX_eq]; exact List.mem_map.2 ⟨3, by simp⟩

section
variable {s : State} {j : Nat} (i : BitVec 5)

/-- An existing `A` register compared with itself by a relation that every word has with itself gives 1. -/
theorem withArith_self_effect {r : ArithWord → ArithWord → Bool} (refl : ∀ a, r a a = true) (hj : j < s.a.length) :
    ∃ t, withArith s j j (fun a b => s.setSingle i (r a b)) = .next t ∧ t.draws = s.draws ∧
      SingleBitEffect i true false s t := by
  have hv := List.getElem?_eq_getElem hj
  rw [← refl s.a[j]]
  exact withArith_setSingle_effect i r hv hv

/-- An existing `X` register compared with itself by a relation that every word has with itself gives 1. -/
theorem withIndex_self_effect {r : IndexWord → IndexWord → Bool} (refl : ∀ a, r a a = true) (hj : j < s.x.length) :
    ∃ t, withIndex s j j (fun a b => s.setSingle i (r a b)) = .next t ∧ t.draws = s.draws ∧
      SingleBitEffect i true false s t := by
  have hv := List.getElem?_eq_getElem hj
  rw [← refl s.x[j]]
  exact withIndex_setSingle_effect i r hv hv

end

/-- Settles O44: each of the eight relations holds between a word and itself. -/
theorem registerComparedWithItself : Obligations.RegisterComparedWithItself := by
  intro s i j
  simp only [List.forall_mem_cons, List.not_mem_nil, false_imp_iff, implies_true, and_true]
  refine ⟨fun hj => ?arith, fun hj => ?index⟩
  case arith =>
    exact ⟨withArith_self_effect i sge_self hj, withArith_self_effect i beq_self_eq_true hj,
      withArith_self_effect i uge_self hj, withArith_self_effect i anyMatch_matchA_self hj⟩
  case index =>
    exact ⟨withIndex_self_effect i sge_self hj, withIndex_self_effect i beq_self_eq_true hj,
      withIndex_self_effect i uge_self hj, withIndex_self_effect i anyMatch_matchX_self hj⟩

/-! ## The signed and the unsigned order -/

/-- The signed order is the unsigned one, turned round where the leftmost bits differ (R5, R99; D2). -/
theorem sge_eq_xor_uge {n : Nat} (a b : BitVec n) : sge a b = ((a.msb != b.msb) ^^ uge a b) := by
  rw [sge_eq, bne_comm]
  exact BitVec.sle_eq_ule

/-- The two orders disagree exactly where the leftmost bits differ (R102). -/
theorem sge_ne_uge_iff {n : Nat} (a b : BitVec n) : sge a b ≠ uge a b ↔ a.msb ≠ b.msb := by
  rw [sge_eq_xor_uge]
  cases uge a b with
  | true => simp
  | false => simp

/-- Settles O46: the bits are the signed and the unsigned order of the operands. -/
theorem unsignedDiffersOnLeftmostBits : Obligations.UnsignedDiffersOnLeftmostBits := by
  intro s i j k a b hi ha hb
  refine ⟨_, _, withArith_of_some ha hb, withArith_of_some ha hb, ?_⟩
  rw [s.commit_single_bit _ hi, s.commit_single_bit _ hi, Option.some_inj.ne, sge_ne_uge_iff,
    BitVec.msb_eq_getLsbD_last, BitVec.msb_eq_getLsbD_last]

end Sys2Proof.Machine
end

section
/-! Compares of two index registers and of an index register with a literal (43_compare_index.md rules R110 to R115):
each instruction as an instance of the effect of a compare that ends in `SetC(i, r)`, and the range check by one
unsigned compare with a literal (R115). -/

namespace Sys2Proof.Machine

/-! ## Compares of two index registers -/

/-- Settles O33: the instruction writes `sge24`, the order of the two's-complement integers (R110). -/
theorem cgexResult : Obligations.CgexResult := by
  intro s i j k v w hv hw
  rw [← sge_eq]
  exact withIndex_setSingle_effect i sge hv hw

/-- Settles O34: the instruction writes whether the two words are identical (R111). -/
theorem ceqxResult : Obligations.CeqxResult :=
  fun _ i _ _ _ _ => withIndex_setSingle_effect i fun a b => a == b

/-- Settles O35: the instruction writes the order of the numbers that the words spell (R112). -/
theorem cugexResult : Obligations.CugexResult :=
  fun _ i _ _ _ _ => withIndex_setSingle_effect i uge

/-! ## Compares of an index register with a literal -/

/-- A compare of an `X` register with a literal that ends in `SetC(i, r)` has the whole effect of a single-bit compare
(R46, R69). -/
theorem withX_setSingle_effect {s : State} {j : Nat} {v : IndexWord} (i : BitVec 5)
    (r : IndexWord → Literal → Bool) (h : Literal) (hv : s.x[j]? = some v) :
    ∃ t, withX s j (fun a => s.setSingle i (r a h)) = .next t ∧ t.draws = s.draws ∧
      SingleBitEffect i (r v h) false s t :=
  ⟨_, withX_of_some hv, s.commit_draws _ _, s.commit_single_effect i _ _⟩

/-- Settles O36: the instruction writes `sge24` of the register and the literal as it stands (R113). -/
theorem cgexkResult : Obligations.CgexkResult := by
  intro s i j v h hv
  rw [← sge_eq]
  exact withX_setSingle_effect i sge h hv

/-- Settles O37: the instruction writes whether the register and the literal are identical (R114). -/
theorem ceqxkResult : Obligations.CeqxkResult :=
  fun _ i _ _ => withX_setSingle_effect i fun a b => a == b

/-- Settles O38: the instruction writes the order of the numbers that the register and the literal spell (R115). -/
theorem cugexkResult : Obligations.CugexkResult :=
  fun _ i _ _ => withX_setSingle_effect i uge

/-! ## The range check -/

/-- Up to half the range of a word, the unsigned bound `n` also bounds the two's-complement integer from both sides:
a word with its leftmost bit set is at least half the range as a number and negative as an integer (R5, R99; D2). -/
theorem toNat_lt_iff_toInt_in_range {w n : Nat} (v : BitVec w) (hn : 2 * n ≤ 2 ^ w) :
    v.toNat < n ↔ 0 ≤ v.toInt ∧ v.toInt < n := by
  have hlt := v.isLt
  rw [BitVec.toInt_eq_toNat_cond]
  split <;> omega

/-- Settles O47: the bit is the unsigned order of the register and the literal, and 0 puts the register below it. -/
theorem rangeCheckByUnsignedConstant : Obligations.RangeCheckByUnsignedConstant := by
  intro s i j v n hi hv _ hn
  refine ⟨_, withX_of_some hv, ?_⟩
  rw [s.commit_single_bit _ hi, Option.some_inj, uge_eq_false_iff]
  exact toNat_lt_iff_toInt_in_range v (by omega)

end Sys2Proof.Machine
end

section
/-! The byte compares (44_compare_bytes.md rules R119 to R123): the match vectors as a property of each lane, the whole
effect of a multiple byte compare of any segment, the four instructions as instances, and that nothing of
register `j` is read but its low order byte. -/

namespace Sys2Proof.Machine

/-! ## The lanes of a match vector -/

/-- `Any(m)` over lanes numbered from 1 tells whether one of them matches (R119). -/
theorem anyMatch_lanes_iff {count : Nat} {lane : Nat → Bool} :
    anyMatch ((List.range' 1 count).map lane) = true ↔ ∃ m, 1 ≤ m ∧ m ≤ count ∧ lane m = true := by
  simp only [anyMatch, List.any_map, List.any_eq_true, List.mem_range'_1, Function.comp_apply, id, and_assoc,
    Nat.add_comm 1, Nat.lt_succ_iff]

/-- Lane `m` is written to the bit numbered `m` from the base (R121, R123). -/
theorem laneWrites_lanes (base first count : Nat) (lane : Nat → Bool) :
    laneWrites (base + first) ((List.range' first count).map lane) =
      (List.range' first count).map fun m => (base + m, lane m) := by
  induction count generalizing first with
  | zero => rfl
  | succ count ih => simp only [List.range'_succ, List.map_cons, laneWrites, Nat.add_assoc, ih]

/-- The calls of a multiple byte compare: the summary to the base, each lane to its bit (R121, R123). -/
theorem mem_multipleWrites_lanes {base count n : Nat} {lane : Nat → Bool} {v : Bool} :
    (n, v) ∈ multipleWrites base ((List.range' 1 count).map lane) ↔
      (n = base ∧ v = anyMatch ((List.range' 1 count).map lane)) ∨
        ∃ m, 1 ≤ m ∧ m ≤ count ∧ n = base + m ∧ v = lane m := by
  simp only [multipleWrites, laneWrites_lanes, List.mem_cons, Prod.mk.injEq, List.mem_map, List.mem_range'_1,
    and_assoc, Nat.add_comm 1, Nat.lt_succ_iff, eq_comm]

/-! ## Multiple byte compares -/

/-- A segment with at least one lane that lies in the storage, begins at bit 24 or lies beyond the condition checks
raises `CC` only at base 24: by no match, or by a match of lane 1 (R62, R121, R123). -/
theorem conditionChecks_multiple_iff {base count : Nat} (lane : Nat → Bool) (hcount : 1 ≤ count)
    (segment : base + count < 24 ∨ base = 24 ∨ 26 ≤ base) :
    conditionChecks (multipleWrites base ((List.range' 1 count).map lane)) = true ↔
      base = 24 ∧ ((¬ ∃ m, 1 ≤ m ∧ m ≤ count ∧ lane m = true) ∨ lane 1 = true) := by
  rw [conditionChecks_iff, mem_multipleWrites_lanes, mem_multipleWrites_lanes, ← anyMatch_lanes_iff,
    Bool.not_eq_true]
  constructor
  · rintro ((⟨hbase, hany⟩ | ⟨m, h1, hm, hbit, -⟩) | (⟨hbase, -⟩ | ⟨m, h1, hm, hbit, hlane⟩))
    · exact ⟨hbase.symm, .inl hany.symm⟩
    · omega
    · omega
    · obtain ⟨rfl, rfl⟩ : base = 24 ∧ m = 1 := by omega
      exact ⟨rfl, .inr hlane.symm⟩
  · rintro ⟨rfl, hany | hlane⟩
    · exact .inl (.inl ⟨rfl, hany.symm⟩)
    · exact .inr (.inr ⟨1, le_rfl, hcount, rfl, hlane.symm⟩)

/-- The commit of the calls of such a segment has the effect of a multiple byte compare (R121, R123). -/
theorem State.commit_multiple_effect {base count : Nat} (s : State) (lane : Nat → Bool) (hcount : 1 ≤ count)
    (segment : base + count < 24 ∨ base = 24 ∨ 26 ≤ base) :
    MultipleEffect base count lane s (s.commit (multipleWrites base ((List.range' 1 count).map lane)) false) where
  summary hbase := by
    refine ⟨_, ?_, anyMatch_lanes_iff⟩
    rw [State.commit_c]
    exact s.setCs_c_of_nodup (multipleWrites_nodup _ _) (mem_multipleWrites_lanes.2 (.inl ⟨rfl, rfl⟩)) hbase
  lanes m h1 hm hbit := by
    rw [State.commit_c]
    exact s.setCs_c_of_nodup (multipleWrites_nodup _ _) (mem_multipleWrites_lanes.2 (.inr ⟨m, h1, hm, rfl, rfl⟩)) hbit
  others n _ outside := by
    rw [State.commit_c]
    refine s.setCs_c_of_not_mem (mem_multipleWrites.not.2 ?_)
    rw [List.length_map, List.length_range']
    omega
  draws := s.commit_draws _ false
  retires := ⟨_, conditionChecks_multiple_iff lane hcount segment, s.commit_retires _ false⟩

/-- Settles O40: the seven calls are those of the segment at the base, whose lanes are the six matches. -/
theorem cbmaResult : Obligations.CbmaResult := by
  intro s i j k v w hv hw
  refine ⟨_, withArith_of_some hv hw, ?_⟩
  rw [matchA_eq]
  exact s.commit_multiple_effect _ (by decide) (by omega)

/-- Settles O42: the four calls are those of the segment at the base, whose lanes are the three matches. -/
theorem cbmxResult : Obligations.CbmxResult := by
  intro s i j k v w hv hw
  refine ⟨_, withIndex_of_some hv hw, ?_⟩
  rw [matchX_eq]
  exact s.commit_multiple_effect _ (by decide) (by omega)

/-! ## Single-bit byte compares -/

/-- Some byte of an `A` register matches when one of the six is the test byte as a number (R119). -/
theorem anyMatch_matchA_iff (v w : ArithWord) :
    anyMatch (matchA (testA v) w) = true ↔
      ∃ m, 1 ≤ m ∧ m ≤ 6 ∧ v.toNat % 256 = w.toNat / 2 ^ (48 - 8 * m) % 256 := by
  rw [matchA_eq]
  refine (anyMatch_lanes_iff (count := 6)).trans ?_
  simp only [decide_eq_true_eq]

/-- Some byte of an `X` register matches when one of the three is the test byte as a number (R119). -/
theorem anyMatch_matchX_iff (v w : IndexWord) :
    anyMatch (matchX (testX v) w) = true ↔
      ∃ m, 1 ≤ m ∧ m ≤ 3 ∧ v.toNat % 256 = w.toNat / 2 ^ (24 - 8 * m) % 256 := by
  rw [matchX_eq]
  refine (anyMatch_lanes_iff (count := 3)).trans ?_
  simp only [decide_eq_true_eq]

/-- Settles O39: the instruction writes whether any byte matches (R120). -/
theorem cbaResult : Obligations.CbaResult := by
  intro s i j k v w hv hw
  obtain ⟨t, ht, draws, effect⟩ := withArith_setSingle_effect i (fun a b => anyMatch (matchA (testA a) b)) hv hw
  exact ⟨t, _, ht, draws, effect, anyMatch_matchA_iff v w⟩

/-- Settles O41: the instruction writes whether any byte matches (R122). -/
theorem cbxResult : Obligations.CbxResult := by
  intro s i j k v w hv hw
  obtain ⟨t, ht, draws, effect⟩ := withIndex_setSingle_effect i (fun a b => anyMatch (matchX (testX a) b)) hv hw
  exact ⟨t, _, ht, draws, effect, anyMatch_matchX_iff v w⟩

/-! ## The test register -/

/-- Two `A` registers have the same test byte when they agree in their low order byte as numbers (R119). -/
theorem testA_congr {v v' : ArithWord} (h : v.toNat % 256 = v'.toNat % 256) : testA v = testA v' :=
  BitVec.eq_of_toNat_eq (by rw [testA_toNat, testA_toNat, h])

/-- Two `X` registers have the same test byte when they agree in their low order byte as numbers (R119). -/
theorem testX_congr {v v' : IndexWord} (h : v.toNat % 256 = v'.toNat % 256) : testX v = testX v' :=
  BitVec.eq_of_toNat_eq (by rw [testX_toNat, testX_toNat, h])

section
variable {ins : Instr} {s t : State} {j k : Nat}

/-- An instruction whose effect is decided by the test byte of `A[j]` and by another register `A[k]` does the same with
any word of that test byte in `A[j]`. -/
theorem exec_of_testA (g : Byte → ArithWord → Effect)
    (hexec : ∀ s, exec ins s = withArith s j k fun v w => .next ((g (testA v) w).apply s)) (hjk : j ≠ k)
    {v v' : ArithWord} (hv : s.a[j]? = some v) (sameByte : testA v = testA v') (h : exec ins s = .next t) :
    exec ins { s with a := s.a.set j v' } = .next { t with a := s.a.set j v' } := by
  rw [hexec, withArith_next] at h
  obtain ⟨u, w, hu, hw, ht⟩ := h
  obtain rfl : v = u := Option.some.inj (hv.symm.trans hu)
  obtain rfl := Host.Outcome.next.inj ht
  obtain ⟨hj, -⟩ := List.getElem?_eq_some_iff.1 hv
  have hj' : (s.a.set j v')[j]? = some v' := List.getElem?_set_self hj
  have hk' : (s.a.set j v')[k]? = some w := (List.getElem?_set_ne hjk).trans hw
  rw [hexec, withArith_of_some hj' hk', ← sameByte, Effect.apply_of_registers _ s _ s.x,
    (g (testA v) w).apply_frame s]

/-- An instruction whose effect is decided by the test byte of `X[j]` and by another register `X[k]` does the same with
any word of that test byte in `X[j]`. -/
theorem exec_of_testX (g : Byte → IndexWord → Effect)
    (hexec : ∀ s, exec ins s = withIndex s j k fun v w => .next ((g (testX v) w).apply s)) (hjk : j ≠ k)
    {v v' : IndexWord} (hv : s.x[j]? = some v) (sameByte : testX v = testX v') (h : exec ins s = .next t) :
    exec ins { s with x := s.x.set j v' } = .next { t with x := s.x.set j v' } := by
  rw [hexec, withIndex_next] at h
  obtain ⟨u, w, hu, hw, ht⟩ := h
  obtain rfl : v = u := Option.some.inj (hv.symm.trans hu)
  obtain rfl := Host.Outcome.next.inj ht
  obtain ⟨hj, -⟩ := List.getElem?_eq_some_iff.1 hv
  have hj' : (s.x.set j v')[j]? = some v' := List.getElem?_set_self hj
  have hk' : (s.x.set j v')[k]? = some w := (List.getElem?_set_ne hjk).trans hw
  rw [hexec, withIndex_of_some hj' hk', ← sameByte, Effect.apply_of_registers _ s s.a,
    (g (testX v) w).apply_frame s]

end

/-- Settles O48: each of the four commits `SetC` calls that the test byte and register `k` decide. -/
theorem testRegisterHighBitsNotRead : Obligations.TestRegisterHighBitsNotRead := by
  refine ⟨fun s t i j k v v' hjk hv sameByte => ⟨?cba, ?cbma⟩, fun s t i j k v v' hjk hv sameByte => ⟨?cbx, ?cbmx⟩⟩
  case cba =>
    exact exec_of_testA (fun b w => .commit false (singleWrite i (anyMatch (matchA b w))) false)
      (fun _ => rfl) hjk hv (testA_congr sameByte)
  case cbma =>
    exact exec_of_testA (fun b w => .commit false (multipleWrites (baseOf8 i) (matchA b w)) false)
      (fun _ => rfl) hjk hv (testA_congr sameByte)
  case cbx =>
    exact exec_of_testX (fun b w => .commit false (singleWrite i (anyMatch (matchX b w))) false)
      (fun _ => rfl) hjk hv (testX_congr sameByte)
  case cbmx =>
    exact exec_of_testX (fun b w => .commit false (multipleWrites (baseOf4 i) (matchX b w)) false)
      (fun _ => rfl) hjk hv (testX_congr sameByte)

end Sys2Proof.Machine
end

section
/-! What a step does with exceptions (60_exceptions.md): which instruction raises which (R132, R134), the invariant
that a recorded fault is part of (R131), and when no step is taken (R131, R153). -/

namespace Sys2Proof.Machine

/-! ## Every step keeps the invariant -/

/-- The two ways in which an instruction that raised `raised` leaves `pc` and the fault record (R68, R131): it stops
the run with a record of the exceptions, or advances `pc` and records nothing. -/
def StopsOrAdvances (raised : ExcBits) (s t : State) : Prop :=
  (raised ≠ ExcBits.none ∧ t.fault = some { raised := raised, pc := s.pc } ∧ t.pc = s.pc) ∨
  (t.fault = s.fault ∧ t.pc = s.pc + 1)

/-- The end of an instruction leaves them in one of these ways, under either policy (R131). -/
theorem Retires.stopsOrAdvances {raised : ExcBits} {s t : State} (h : Retires raised s t) :
    StopsOrAdvances raised s t := by
  by_cases hraised : raised = ExcBits.none
  · exact .inr (h.goesOn (.inl hraised))
  · match hpolicy : s.policy with
    | .fault => exact .inl ⟨hraised, h.stops hraised hpolicy⟩
    | .continue => exact .inr (h.goesOn (.inr hpolicy))

/-- So does an effect: an odd register number always stops the run (R67), a commit ends as every one does (R68). -/
theorem Effect.apply_stopsOrAdvances (e : Effect) (s : State) : StopsOrAdvances e.raised s (e.apply s) := by
  cases e with
  | odd => exact .inl ⟨by decide, rfl, rfl⟩
  | commit drawn writes uo => exact Retires.stopsOrAdvances (Retires.of_draws (State.commit_retires _ writes uo))

/-- The exceptions raised are among the sticky bits after they are set (R130). -/
theorem ExcBits.within_union_right (e f : ExcBits) : f.within (e.union f) :=
  ⟨Bool.or_inr, Bool.or_inr, Bool.or_inr⟩

/-- Settles O56: a step changes no register and no instruction, and it ran one at `pc` with no fault recorded; so
it stops there with a record of what it raised, or advances to the next position with still no record. -/
theorem stepKeepsInv : Obligations.StepKeepsInv := by
  intro wR s t inv h
  obtain ⟨ha, hx, hprog, -, -⟩ := stepLeavesRegistersAndProgram s t h
  obtain ⟨noFault, i, hi, hexec⟩ := exec_of_step h
  obtain ⟨inside, -⟩ := List.getElem?_eq_some_iff.1 hi
  obtain ⟨e, -, rfl, -⟩ := exec_effect hexec
  refine ⟨ha ▸ inv.arithCount, hx ▸ inv.indexCount, hprog ▸ inv.progWellFormed, ?pcInProgram, ?faultNamed⟩
  case pcInProgram =>
    rw [hprog]
    rcases e.apply_stopsOrAdvances s with ⟨-, -, hpc⟩ | ⟨-, hpc⟩ <;> omega
  case faultNamed =>
    intro r hr
    rcases e.apply_stopsOrAdvances s with ⟨raises, hfault, hpc⟩ | ⟨hfault, -⟩
    · obtain rfl : { raised := e.raised, pc := s.pc } = r := Option.some.inj (hfault.symm.trans hr)
      rw [e.apply_exc, hpc, hprog]
      exact ⟨raises, s.exc.within_union_right _, rfl, inside⟩
    · simp [hfault, noFault] at hr

/-! ## Where each exception bit comes from -/

/-- What raises which exception: `RS` an odd double precision compare, `UO` another floating-point compare, `CC`
an instruction that designates bit 24 or 25 and stops at no odd register number (R62, R66, R67, R132). -/
theorem Effect.Fits.sources {e : Effect} {i : Instr} (hfits : e.Fits i) :
    (e.raised.rs = true → i.oddDouble) ∧
    (e.raised.uo = true → i.isFloat ∧ ¬ i.oddDouble) ∧
    (e.raised.cc = true → (i.designates 24 ∨ i.designates 25) ∧ ¬ i.oddDouble) := by
  cases e with
  | odd => exact ⟨fun _ => hfits, Bool.noConfusion, Bool.noConfusion⟩
  | commit drawn writes uo =>
    obtain ⟨even, hwrites, hfloat⟩ := hfits
    exact ⟨Bool.noConfusion, fun huo => ⟨hfloat (.inr huo), even⟩,
      fun hcc => ⟨(mem_of_conditionChecks hcc).imp (hwrites 24).1 (hwrites 25).1, even⟩⟩

/-- A sticky bit is unchanged unless it is raised (R21, R130). -/
theorem sticky_eq_or_source {bit raised : Bool} {source : Prop} (h : raised = true → source) :
    (bit || raised) = bit ∨ source := by
  cases raised with
  | false => exact .inl (Bool.or_false bit)
  | true => exact .inr (h rfl)

/-- Settles O55: the bits after a step are those before and those that the effect of its instruction raises. -/
theorem sourcesOfExceptionBits : Obligations.SourcesOfExceptionBits := by
  intro s t h
  obtain ⟨-, i, hi, hexec⟩ := exec_of_step h
  obtain ⟨e, hfits, rfl, -⟩ := exec_effect hexec
  obtain ⟨hrs, huo, hcc⟩ := hfits.sources
  rw [e.apply_exc]
  exact ⟨i, hi, sticky_eq_or_source hrs, sticky_eq_or_source huo, sticky_eq_or_source hcc⟩

/-! ## When no step is taken -/

/-- A faulted state takes no step (R131). -/
theorem step_of_fault {s : State} {r : FaultRecord} (h : s.fault = some r) : step s = .fault (.recorded r) := by
  simp only [step, h]

/-- With no instruction at `pc` a step is refused for want of one (R153). -/
theorem step_of_no_instruction {s : State} (hf : s.fault = none) (hi : s.prog[s.pc]? = none) :
    step s = .refused s.noInstruction := by
  simp only [step, hf, State.fetch, hi]

/-- The meaning of an instruction is refused for a missing register only (R44, D24), never for want of an
instruction. -/
theorem exec_ne_refused (i : Instr) (s : State) :
    exec i s ≠ .refused .runOver ∧ exec i s ≠ .refused .pcBeyondProgram := by
  by_cases hoperands : i.operandsExist s
  · obtain ⟨t, ht⟩ := exec_completes hoperands
    simp [ht]
  · rcases missingRegisterIsRefused i s hoperands with ⟨n, -, -, hn⟩ | ⟨n, -, -, hn⟩ <;> simp [hn]

/-- A refusal that no instruction gives is one of a step at the end of the program list or beyond it (R153). -/
theorem step_refused_iff {s : State} {reason : Refusal} (hf : s.fault = none)
    (hexec : ∀ i, exec i s ≠ .refused reason) :
    step s = .refused reason ↔ s.prog.length ≤ s.pc ∧ s.noInstruction = reason := by
  cases hi : s.prog[s.pc]? with
  | some i =>
    obtain ⟨inside, -⟩ := List.getElem?_eq_some_iff.1 hi
    rw [step_eq_exec hf hi]
    exact iff_of_false (hexec i) fun h => absurd h.1 (not_le.2 inside)
  | none =>
    rw [step_of_no_instruction hf hi]
    simp [List.getElem?_eq_none_iff.1 hi]

/-- Which refusal it is: the run is over exactly at the end of the program list (R153). -/
theorem State.noInstruction_eq_runOver (s : State) : s.noInstruction = .runOver ↔ s.pc = s.prog.length := by
  simp [State.noInstruction]

/-- The other refusal is for every other position. -/
theorem State.noInstruction_eq_pcBeyondProgram (s : State) :
    s.noInstruction = .pcBeyondProgram ↔ s.pc ≠ s.prog.length := by
  simp [State.noInstruction]

/-- Settles O10: the record stops the step, and with none only the place of `pc` can refuse it for want of an
instruction. -/
theorem noStepWhenFaultedOrOver : Obligations.NoStepWhenFaultedOrOver := by
  refine ⟨fun _ _ => step_of_fault, fun s hf => ⟨?runOver, ?pcBeyond⟩⟩
  case runOver =>
    rw [step_refused_iff hf fun i => (exec_ne_refused i s).1, s.noInstruction_eq_runOver]
    omega
  case pcBeyond =>
    rw [step_refused_iff hf fun i => (exec_ne_refused i s).2, s.noInstruction_eq_pcBeyondProgram]
    omega

end Sys2Proof.Machine
end

section
/-! Where a run begins and how it ends (70_reset_and_hazards.md rules R150, R153): a launch state meets the invariant,
with a full file of registers no instruction is refused, and each step uses up one instruction or stops the run. -/

namespace Sys2Proof.Machine

/-- Settles O13: the register counts and the program are all that a launch state needs. -/
theorem launchMeetsInv : Obligations.LaunchMeetsInv :=
  fun _ _ _ c exc _ policy ha2 haMax haEven hx1 hxMax hprog =>
    ⟨State.launch_inv c exc policy ⟨ha2, haMax, haEven⟩ ⟨hx1, hxMax⟩ hprog, rfl⟩

/-- Settles O50, by the forms of operands. -/
theorem everyInstructionCompletes : Obligations.EveryInstructionCompletes :=
  fun _ _ => exec_completes

/-! ## Register numbers that fit their fields -/

/-- A well-formed instruction that stops at no odd register number reads registers below `2^W_R` alone: those of its
fields, and for a pair also the one after an even number (R6, R12, R67). -/
theorem reads_lt_of_wellFormed {wR : Nat} {i : Instr} (hi : i.wellFormed wR = true) (notOdd : ¬ i.oddDouble)
    (evenCount : 2 ^ wR % 2 = 0) : (∀ n ∈ i.readsA, n < 2 ^ wR) ∧ (∀ n ∈ i.readsX, n < 2 ^ wR) := by
  cases i with
  | cged b j k | ceqd b j k | cmged b j k | cmeqd b j k =>
    obtain ⟨hj, hk⟩ : j < 2 ^ wR ∧ k < 2 ^ wR := by simpa [Instr.wellFormed, regFits] using hi
    obtain ⟨evenJ, evenK⟩ : j % 2 = 0 ∧ k % 2 = 0 := by
      rwa [oddDouble_iff_oddField rfl, Bool.not_eq_true, oddField_eq_false] at notOdd
    have hj1 : j + 1 < 2 ^ wR := by omega
    have hk1 : k + 1 < 2 ^ wR := by omega
    simp [Instr.readsA, Instr.readsX, hj, hj1, hk, hk1]
  | _ => simpa [Instr.wellFormed, regFits, Instr.readsA, Instr.readsX] using hi

/-- With `2^W_R` registers in each file every register that a well-formed instruction reads exists (R44). -/
theorem operandsExist_of_wellFormed {wR : Nat} {i : Instr} {s : State} (hi : i.wellFormed wR = true)
    (ha : s.a.length = 2 ^ wR) (hx : s.x.length = 2 ^ wR) (evenCount : s.a.length % 2 = 0) : i.operandsExist s := by
  by_cases hodd : i.oddDouble
  · exact .inl hodd
  · obtain ⟨readsA, readsX⟩ := reads_lt_of_wellFormed hi hodd (ha ▸ evenCount)
    exact .inr ⟨ha ▸ readsA, hx ▸ readsX⟩

/-- Settles O57: the instruction at `pc` is well formed, so its registers exist and it completes. -/
theorem noStuckState : Obligations.NoStuckState := by
  intro wR s inv ha hx hfault hpc
  obtain ⟨-, -, evenCount⟩ := inv.arithCount
  have hi : s.prog[s.pc]? = some s.prog[s.pc] := List.getElem?_eq_getElem hpc
  have wellFormed := inv.progWellFormed _ (List.getElem_mem hpc)
  rw [step_eq_exec hfault hi]
  exact exec_completes (operandsExist_of_wellFormed wellFormed ha hx evenCount)

/-! ## Runs -/

/-- A run of one step more is the run from the state after its first step. -/
theorem run_succ_of_step {s t : State} (h : step s = .next t) (n : Nat) :
    Host.Core.run Sys2Proof.core (n + 1) s = Host.Core.run Sys2Proof.core n t := by
  have hcore : Sys2Proof.core.step s = .next t := h
  simp only [Host.Core.run, hcore]

/-- A step stops the run with a fault recorded, or advances `pc` with none (R131, R153). -/
theorem step_faults_or_advances {s t : State} (h : step s = .next t) :
    t.isFaulted ∨ t.fault = none ∧ t.pc = s.pc + 1 := by
  obtain ⟨noFault, i, -, hexec⟩ := exec_of_step h
  obtain ⟨e, -, rfl, -⟩ := exec_effect hexec
  rcases e.apply_stopsOrAdvances s with ⟨-, hfault, -⟩ | ⟨hfault, hpc⟩
  · exact .inl (Option.isSome_of_eq_some hfault)
  · exact .inr ⟨hfault.trans noFault, hpc⟩

/-- Settles O58, by induction on the number of instructions left: with none left the run is over, and otherwise there
is a step, which faults or leaves one instruction fewer. -/
theorem runEndsOrFaults : Obligations.RunEndsOrFaults := by
  intro wR s inv ha hx hfault
  induction left : s.prog.length - s.pc generalizing s with
  | zero =>
    have hpc : s.pc = s.prog.length := le_antisymm inv.pcInProgram (Nat.sub_eq_zero_iff_le.1 left)
    exact ⟨0, le_rfl, s, rfl, inv, .inl ⟨hpc, hfault⟩⟩
  | succ m ih =>
    obtain ⟨t, hstep⟩ := noStuckState wR s inv ha hx hfault (by omega)
    have invT : t.Inv wR := stepKeepsInv wR s t inv hstep
    obtain ⟨sameA, sameX, sameProg, -, -⟩ := stepLeavesRegistersAndProgram s t hstep
    rcases step_faults_or_advances hstep with faulted | ⟨noFault, hpc⟩
    · exact ⟨1, by omega, t, run_succ_of_step hstep 0, invT, .inr faulted⟩
    · have leftT : t.prog.length - t.pc = m := by rw [sameProg, hpc]; omega
      obtain ⟨n, hn, u, hrun, ends⟩ := ih t invT (sameA ▸ ha) (sameX ▸ hx) noFault leftT
      exact ⟨n + 1, by omega, u, (run_succ_of_step hstep n).trans hrun, ends⟩

end Sys2Proof.Machine
end

section
/-! Special register `S0` as a view of the condition bits (10_state.md rules R15, R16), and the values of the state
after reset (R24, log 1 to log 4). -/

namespace Sys2Proof.Machine

/-- One step of the packing of `S0`: a word moved up by one bit, with `b` at weight 0. -/
def shiftIn {width : Nat} (b : Bool) (w : BitVec width) : BitVec width :=
  (w <<< 1) ||| (BitVec.ofBool b).setWidth width

theorem getLsbD_shiftIn_zero {width : Nat} (b : Bool) (w : BitVec width) (h : 0 < width) :
    (shiftIn b w).getLsbD 0 = b := by
  simp [shiftIn, h]

theorem getLsbD_shiftIn_succ {width m : Nat} (b : Bool) (w : BitVec width) (h : m + 1 < width) :
    (shiftIn b w).getLsbD (m + 1) = w.getLsbD m := by
  simp [shiftIn, h, BitVec.getLsbD_eq_getElem (Nat.lt_of_succ_lt h)]

/-- Shifting in a list of bits, the head last, leaves bit `m` of the list at weight `m`. -/
theorem getLsbD_foldr_shiftIn {width m : Nat} (bits : List Bool) (hm : m < width) :
    (bits.foldr shiftIn 0#width).getLsbD m = bits.getD m false := by
  induction bits generalizing m with
  | nil => simp
  | cons b bits ih =>
    cases m with
    | zero => exact getLsbD_shiftIn_zero b _ hm
    | succ m => exact (getLsbD_shiftIn_succ b _ hm).trans (ih (Nat.lt_of_succ_lt hm))

/-- `S0` is the condition bits shifted in, `c[0]` first (R15, R16). -/
theorem State.s0_eq_foldr_shiftIn (s : State) : s.s0 = s.c.toList.reverse.foldr shiftIn 0#24 :=
  List.foldr_reverse.symm

/-- Settles O17: `c[0]` is shifted in first, so `c[n]` is bit `23 - n` of the reversed list (R16). -/
theorem specialRegisterPacking : Obligations.SpecialRegisterPacking := by
  intro s n h
  have fromTheEnd : 23 - (23 - n) = n := by omega
  have inList : 23 - n < s.c.toList.length := by rw [Vector.length_toList]; omega
  rw [State.s0_eq_foldr_shiftIn, getLsbD_foldr_shiftIn _ (by omega), List.getD_eq_getElem?_getD,
    List.getElem?_reverse inList]
  simp [fromTheEnd, h]

/-- With no condition bit set `S0` is 0 (R16). -/
theorem State.s0_eq_zero {s : State} (h : s.c = Vector.replicate 24 false) : s.s0 = 0#24 := by
  refine BitVec.eq_of_getLsbD_eq fun m hm => ?_
  have weight : 23 - (23 - m) = m := by omega
  have packed := specialRegisterPacking s (23 - m) (by omega)
  simpa [weight, h] using packed

/-- Settles O11: each register file is 32 copies of 0, `S0` views no set condition bit, and the other values are those
that `State.reset` writes. -/
theorem resetState : Obligations.ResetState :=
  ⟨rfl, rfl, rfl, rfl, rfl, State.s0_eq_zero rfl,
    fun _ hn => ⟨List.getElem?_replicate_of_lt hn, List.getElem?_replicate_of_lt hn⟩,
    fun _ hn => ⟨List.getElem?_eq_none hn, List.getElem?_eq_none hn⟩⟩

end Sys2Proof.Machine
end
